-- ==== Sys2Proof/Word.lean ====
section
/-! DEFINITION. The words of the block: the byte every stream is made of, the 20-byte digest operand and the six
characters of a code (spec/00_scope.md section 7 and R5; everything is unsigned). -/

namespace Sys2Proof

/-- A byte, also an 8-bit character (R5 `CHAR_WIDTH`, `BYTE_BITS`). -/
abbrev Byte := BitVec 8

/-- A digest: exactly 20 bytes, `d[0]` the first byte of the hash output (R5 `DIGEST_BYTES`, R62). -/
abbrev Digest := Vector Byte 20

/-- The rendered code `S`: exactly six characters, the most significant digit first (R5 `DIGITS`, R66). -/
abbrev CodeString := Vector Byte 6

end Sys2Proof
end

