-- ==== Sys2Proof/Config.lean ====
section
/-! DEFINITION. What the spec leaves open, as constants WITHOUT a body: no proof can see a value of them. -/

namespace Sys2Proof

/-- `ACC` before the first reset: unspecified (R87; log 3). -/
opaque Config.powerOnAcc : BitVec 7

/-- `NB` before the first reset: unspecified (R87; log 3). -/
opaque Config.powerOnNb : BitVec 3

/-- `FLT` before the first reset: unspecified (R87; log 3). -/
opaque Config.powerOnFlt : Bool

/-- HMAC-SHA1, the host's primitive (R8): key and message to digest, `none` when the primitive fails (R11). Its
definition is in no source (N12), so it is uninterpreted (log 8). -/
opaque Config.hmacSha1 : List Byte → List Byte → Option Digest

end Sys2Proof
end

