-- ==== Sys2Proof/Syntax.lean ====
section
/-! DEFINITION. The syntax of both directions of the command interface: commands (R36, R38), responses (R37), the
host's inputs (R14, R86) and the lines of a listing (R42, R43). -/

namespace Sys2Proof

/-- The commands, one constructor per row of spec/opcode_table.json (R38). -/
inductive Instr where
  /-- `B32.PUSH c`: present one character to the decoder (R51). -/
  | b32Push (c : Byte)
  /-- `B32.END`: end of the string (R52). -/
  | b32End
  /-- `TTM.TRUNC d`: offset, truncated value, code and code string of one digest (R67). -/
  | ttmTrunc (d : Digest)
deriving DecidableEq, Repr

/-- The three command formats (R36). -/
inductive Format where
  /-- no operand -/
  | z
  /-- one character -/
  | c
  /-- a digest -/
  | d
deriving DecidableEq, Repr

/-- How many operand bytes follow the opcode byte (R36). -/
def Format.operandCount : Format → Nat
  | .z => 0
  | .c => 1
  | .d => 20

/-- What a host may put on the wire for one command, before any check: an opcode byte and its operand bytes (R36). -/
structure RawCommand where
  op : Byte
  operands : List Byte
deriving DecidableEq, Repr

/-- What the block returns for one command (R37). The fields have the widths they have on the wire, so that the
always-zero bits of R37 (bit 31 of `T`, bits 23 to 20 of `C`, bits 7 to 4 of `offset`) are visible (log 13). -/
inductive Response where
  /-- status 0x00: no byte was completed -/
  | none
  /-- status 0x01: one decoded byte -/
  | byte (b : Byte)
  /-- status 0x02: `offset`, `T`, `C` and `S` of a digest -/
  | code (offset : Byte) (t : BitVec 32) (c : BitVec 24) (s : CodeString)
  /-- status 0xE0: `IllegalCommand`, with the offending opcode byte -/
  | fault (op : Byte)
  /-- status 0xEF: presented while `FLT = 1` -/
  | halted
deriving DecidableEq, Repr

/-- One input of the host: a byte of the command stream, or the reset event on its line of its own (R86). -/
inductive Input where
  | byte (b : Byte)
  | reset
deriving DecidableEq, Repr

/-- One line of a listing (R42, R43). -/
inductive AsmLine where
  /-- a command in its plain syntax -/
  | command (i : Instr)
  /-- `B32.PUSH 'x'`: the character written out -/
  | pushChar (x : Byte)
  /-- `B32.STR "c1c2...cn"` -/
  | str (s : List Byte)
  /-- `B32.STRX n1 n2 ... nk` -/
  | strX (s : List Byte)
  /-- the directive `.RESET` -/
  | reset
  /-- the directive `.ILLEGAL 0xNN` -/
  | illegal (op : Byte)
deriving DecidableEq, Repr

end Sys2Proof
end

