-- ==== Sys2Proof/Decode.lean ====
section
/-! DEFINITION. The framing of both byte streams: the command decoder (R38, R40, R41), total on any bytes and
rejecting by name, and after it the encoder (R36); the response encoder and the host's parser of it (R37); the
160-bit bus form of a digest (R39). Nothing here looks at the state: framing is the same in every state (R38). -/

namespace Sys2Proof

/-! ## The opcode map (R38) -/

/-- The opcode byte of `B32.PUSH` (R38). -/
def opPush : Byte := 0x01

/-- The opcode byte of `B32.END` (R38). -/
def opEnd : Byte := 0x02

/-- The opcode byte of `TTM.TRUNC` (R38). -/
def opTrunc : Byte := 0x10

/-- The format an opcode byte selects; none of the other 253 values has one (R38, R40). -/
def formatOf (op : Byte) : Option Format :=
  if op = opPush then some .c
  else if op = opEnd then some .z
  else if op = opTrunc then some .d
  else none

/-- How many bytes the input beginning with this opcode byte has: 1, 2 or 21, and 1 for an illegal one (R38, R41). -/
def inputLength (op : Byte) : Nat :=
  match formatOf op with
  | some f => 1 + f.operandCount
  | none => 1

/-! ## The command decoder -/

/-- What the decoder reads at the head of a byte stream. -/
inductive Frame where
  /-- a whole command, and the bytes after it -/
  | command (i : Instr) (rest : List Byte)
  /-- `Illegal(op)`: the byte is no opcode; only that byte is consumed (R38, R40) -/
  | illegal (op : Byte) (rest : List Byte)
  /-- operand bytes (or every byte) are still missing (R41) -/
  | incomplete
deriving DecidableEq, Repr

/-- The first 20 bytes as a digest, byte `k` being `d[k]`, and the bytes after them (R36, R39, R62). -/
def takeDigest (bs : List Byte) : Option (Digest × List Byte) :=
  if h : 20 ≤ bs.length then
    some (⟨(bs.take 20).toArray, by simpa using h⟩, bs.drop 20)
  else none

/-- The operand of format C (R36). -/
def decodePush : List Byte → Frame
  | [] => .incomplete
  | c :: rest => .command (.b32Push c) rest

/-- The operand of format D (R36). -/
def decodeTrunc (bs : List Byte) : Frame :=
  match takeDigest bs with
  | some (d, rest) => .command (.ttmTrunc d) rest
  | none => .incomplete

/-- The decoder of R38: read one byte, then the operand bytes its opcode asks for. -/
def decode : List Byte → Frame
  | [] => .incomplete
  | op :: rest =>
    if op = opPush then decodePush rest
    else if op = opEnd then .command .b32End rest
    else if op = opTrunc then decodeTrunc rest
    else .illegal op rest

/-! ## The command encoder -/

/-- The raw command of an instruction: its opcode byte and its operand bytes (R36). -/
def rawOf : Instr → RawCommand
  | .b32Push c => ⟨opPush, [c]⟩
  | .b32End => ⟨opEnd, []⟩
  | .ttmTrunc d => ⟨opTrunc, d.toList⟩

/-- The bytes of a raw command, the opcode byte first (R36). -/
def RawCommand.bytes (r : RawCommand) : List Byte := r.op :: r.operands

/-- The bytes of an instruction, first byte first (R36). -/
def encode (i : Instr) : List Byte := (rawOf i).bytes

/-- The digest a 160-bit parallel bus carries: `d[k] = DIGEST[159 - 8k : 152 - 8k]` (R39). -/
def digestOfBus (bus : BitVec 160) : Digest :=
  Vector.ofFn fun k => bus.extractLsb' (152 - 8 * k.val) 8

/-! ## Responses (R37) -/

/-- Status bytes (R37). -/
def statusNone : Byte := 0x00
/-- Status byte of `BYTE` (R37). -/
def statusByte : Byte := 0x01
/-- Status byte of `CODE` (R37). -/
def statusCode : Byte := 0x02
/-- Status byte of `FAULT`, also the cause code of `IllegalCommand` (R37, R73). -/
def statusFault : Byte := 0xE0
/-- Status byte of `HALTED` (R37). -/
def statusHalted : Byte := 0xEF

/-- 32 bits as four bytes, the most significant first (R28, R37). -/
def bytesOf32 (t : BitVec 32) : List Byte :=
  [t.extractLsb' 24 8, t.extractLsb' 16 8, t.extractLsb' 8 8, t.extractLsb' 0 8]

/-- 24 bits as three bytes, the most significant first (R28, R37). -/
def bytesOf24 (c : BitVec 24) : List Byte :=
  [c.extractLsb' 16 8, c.extractLsb' 8 8, c.extractLsb' 0 8]

/-- The bytes of a response, the status byte first (R37). -/
def Response.bytes : Response → List Byte
  | .none => [statusNone]
  | .byte b => [statusByte, b]
  | .code offset t c s => statusCode :: offset :: (bytesOf32 t ++ bytesOf24 c ++ s.toList)
  | .fault op => [statusFault, op]
  | .halted => [statusHalted]

/-- The 14 payload bytes of a `CODE` response, read back (R37). -/
def parseCode : List Byte → Option (Response × List Byte)
  | o :: t3 :: t2 :: t1 :: t0 :: c2 :: c1 :: c0 :: s0 :: s1 :: s2 :: s3 :: s4 :: s5 :: rest =>
    some (.code o (t3 ++ t2 ++ t1 ++ t0) (c2 ++ c1 ++ c0) #v[s0, s1, s2, s3, s4, s5], rest)
  | _ => none

/-- The payload byte of a two-byte response, read back (R37). -/
def parseOne (f : Byte → Response) : List Byte → Option (Response × List Byte)
  | [] => none
  | b :: rest => some (f b, rest)

/-- How the host reads one response off the byte stream: the status byte alone decides the length (R37). -/
def parseResponse : List Byte → Option (Response × List Byte)
  | [] => none
  | st :: rest =>
    if st = statusNone then some (.none, rest)
    else if st = statusByte then parseOne .byte rest
    else if st = statusCode then parseCode rest
    else if st = statusFault then parseOne .fault rest
    else if st = statusHalted then some (.halted, rest)
    else none

/-! ## The opcode table's numbering -/

/-- The 21 bytes of a word numbered as spec/opcode_table.json numbers it: bits 7..0 are the first byte sent, bits
15..8 the second, and so on; bits from `nbits` up are 0. -/
def bytesOfWord (nbits w : Nat) : List Byte :=
  (List.range 21).map fun k => BitVec.ofNat 8 (w % 2 ^ nbits / 256 ^ k)

/-- The instruction the decoder reads from such a word; none where it refuses. -/
def decodeTableWord (nbits w : Nat) : Option Instr :=
  match decode (bytesOfWord nbits w) with
  | .command i _ => some i
  | .illegal _ _ => none
  | .incomplete => none

end Sys2Proof
end

