-- ==== Sys2Proof/WellFormed.lean ====
section
/-! DEFINITION. What may be sent as one command, and what a listing line may say. In operand bytes nothing is illegal
(R39, R40), so an `Instr` is always well formed; a raw command may name no opcode, or carry too few or too many
operand bytes (R92), and a listing line may misuse `.ILLEGAL` or `'x'` (R42). -/

namespace Sys2Proof

/-- A raw command is one command: its opcode byte is assigned and its operand bytes are exactly as many as the format
has ("The host must send exactly 1, 2 or 21 bytes per command", R92). -/
def RawCommand.wellFormed (r : RawCommand) : Bool :=
  match formatOf r.op with
  | some f => r.operands.length == f.operandCount
  | none => false

/-- An instruction is well formed when what it encodes to is. -/
def Instr.wellFormed (i : Instr) : Bool := (rawOf i).wellFormed

/-- A printable character: 0x20 to 0x7E (R42 "one printable character"; the range is PRESUMED ASCII, log 12). -/
def printable (x : Byte) : Bool := decide (0x20 ≤ x.toNat) && decide (x.toNat ≤ 0x7E)

/-- The checks of R42 and R43 on a listing line: a written-out character is printable, and the byte of `.ILLEGAL` must
be an illegal opcode. -/
def AsmLine.wellFormed : AsmLine → Bool
  | .command i => i.wellFormed
  | .pushChar x => printable x
  | .str s => s.all printable
  | .strX _ => true
  | .reset => true
  | .illegal op => (formatOf op).isNone

end Sys2Proof
end

