-- ==== Sys2Proof/Machine/State.lean ====
section
/-! DEFINITION. The state of one instance of the block (R15), the reasons a step can stop, and the state right after
reset (R25, R86). No memory and no program counter exist (R21, R26). -/

namespace Sys2Proof.Machine

open Sys2Proof

/-- The state of one instance. `acc`, `nb`, `flt` are the three elements of R15; `live`, `rx`, `tx` are the model's own
fields: the spec calls what they hold inputs and outputs of a step (R16; logs 1, 2, 3). -/
structure State where
  /-- `ACC`, the residual bits, right-aligned (R17). -/
  acc : BitVec 7
  /-- `NB`, how many bits of `ACC` are residual bits (R18). -/
  nb : BitVec 3
  /-- `FLT`, the block has taken `IllegalCommand` and is halted (R22). -/
  flt : Bool
  /-- A reset has occurred (R87). -/
  live : Bool
  /-- The host's inputs not yet consumed, oldest first (R36, R86). -/
  rx : List Input
  /-- The responses sent, oldest first (R37). -/
  tx : List Response
deriving DecidableEq, Repr

/-- Why a step stops with a fault. `IllegalCommand` is none of these: its entry is described by the spec and is a next
state (R76). -/
inductive Fault where
  /-- Raised by `step` when a byte is presented before the first reset: "A model gives the block no command step before
  a reset has occurred" (R87). Safe: the model stops where a chip would do something unspecified (log 3). -/
  | beforeFirstReset
deriving DecidableEq, Repr

/-- Why a step refuses. -/
inductive Refusal where
  /-- Raised by an arm of `exec` whose instruction has no meaning yet. No arm is such an arm. Safe. -/
  | notModelled (mnemonic : String)
deriving DecidableEq, Repr

/-- The state right after reset (R25, R86). -/
def State.reset : State :=
  { acc := 0, nb := 0, flt := false, live := true, rx := [], tx := [] }

/-- The state before the first reset: `ACC`, `NB` and `FLT` unspecified, no command step (R87; log 3). -/
def State.powerOn : State :=
  { acc := Config.powerOnAcc, nb := Config.powerOnNb, flt := Config.powerOnFlt, live := false, rx := [], tx := [] }

end Sys2Proof.Machine
end

