-- ==== Sys2Proof/Machine/Flags.lean ====
section
/-! DEFINITION. The one flag, `FLT` (R22): set by `IllegalCommand`, cleared by reset, read by every command; no command
writes a flag as a side effect of a computation. -/

namespace Sys2Proof.Machine

open Sys2Proof

/-- `FLT <- 1` (R76). -/
def State.setFlt (s : State) : State := { s with flt := true }

/-- `FLT <- 0`, a part of reset (R86). -/
def State.clearFlt (s : State) : State := { s with flt := false }

/-- The halted condition (R78). -/
def State.isHalted (s : State) : Bool := s.flt

end Sys2Proof.Machine
end

