-- ==== Sys2Proof/Machine/Operands.lean ====
section
/-! DEFINITION. The operands: the character of `B32.PUSH` as a symbol (R45 to R47) and the digest of `TTM.TRUNC` as an
offset and a window of four bytes (R27, R63). -/

namespace Sys2Proof.Machine

open Sys2Proof

/-! ## Characters -/

/-- `upcase(c)`: ASCII-only uppercasing (R45). -/
def upcase (c : Byte) : Byte :=
  if 0x61 ≤ c.toNat ∧ c.toNat ≤ 0x7A then c - 0x20 else c

/-- `index(u)`: the position of an uppercased character in the alphabet, or none (R46). -/
def index (u : Byte) : Option (BitVec 5) :=
  if 0x41 ≤ u.toNat ∧ u.toNat ≤ 0x5A then some (BitVec.ofNat 5 (u.toNat - 0x41))
  else if 0x32 ≤ u.toNat ∧ u.toNat ≤ 0x37 then some (BitVec.ofNat 5 (u.toNat - 0x32 + 26))
  else none

/-- The symbol of a character: none for a dropped one (R47). -/
def symbol (c : Byte) : Option (BitVec 5) := index (upcase c)

/-! ## Digests -/

/-- `OFFSET_MASK` (R5). -/
def offsetMask : Byte := 0x0F

/-- `MSB_MASK` (R5). -/
def msbMask : Byte := 0x7F

/-- `offset = d[19] & 0x0F` (R63). -/
def digestOffset (d : Digest) : Byte := d[19] &&& offsetMask

/-- The window indices are always inside the digest (R63). -/
theorem digestOffset_le (d : Digest) : (digestOffset d).toNat ≤ 15 := by
  have h : (digestOffset d).toNat = d[19].toNat &&& 15 := by simp [digestOffset, offsetMask]
  rw [h]
  exact Nat.and_le_right

/-- Window byte `i`, `d[offset + i]` (R27, R64). -/
def windowByte (d : Digest) (i : Fin 4) : Byte :=
  d[(digestOffset d).toNat + i.val]'(by have := digestOffset_le d; omega)

end Sys2Proof.Machine
end

