-- ==== Sys2Proof/Machine/Ops.lean ====
section
/-! DEFINITION. The named operations on the state: sending a response (R37), the check every command begins with (R78,
R81), writing the decoder's registers (R17, R18), TAKING the one exception (R76) and the only way back from it, reset
(R79, R86). -/

namespace Sys2Proof.Machine

open Sys2Proof

/-- `respond X(payload)`: the block sends one response (R37). -/
def State.respond (r : Response) (s : State) : State := { s with tx := s.tx ++ [r] }

/-- Write the decoder's two registers (R17, R18). -/
def State.setDecoder (acc : BitVec 7) (nb : BitVec 3) (s : State) : State := { s with acc := acc, nb := nb }

/-- The check on every input, before anything else: with `FLT = 1` it is answered `HALTED` and reads and writes
nothing (R78, R81). -/
def whenRunning (effect : State → State) (s : State) : State :=
  if s.isHalted then s.respond .halted else effect s

/-- TAKING THE EXCEPTION `IllegalCommand(op)`: `FLT <- 1`, `ACC` and `NB` keep their values, respond `FAULT(op)`;
control goes nowhere (R76). What is recorded is the opcode byte, in the response alone (R75). -/
def State.raiseIllegalCommand (op : Byte) (s : State) : State := (s.setFlt).respond (.fault op)

/-- The input `Illegal(op)`: halted check first, then the exception (R74, R78, R81). -/
def answerIllegal (op : Byte) (s : State) : State := whenRunning (State.raiseIllegalCommand op) s

/-- THE RETURN FROM THE EXCEPTION is reset and nothing else (R79): `ACC <- 0`, `NB <- 0`, `FLT <- 0`, no response; and
from here on the block takes commands (R86, R87). -/
def State.takeReset (s : State) : State := { (s.setDecoder 0 0).clearFlt with live := true }

/-- The host's inputs are queued behind those not yet consumed (R14, R36, R86; log 1). -/
def State.send (ins : List Input) (s : State) : State := { s with rx := s.rx ++ ins }

end Sys2Proof.Machine
end

