-- ==== Sys2Proof/Machine/B32d.lean ====
section
/-! DEFINITION. Unit B32D, the Base32 decoder: the meanings of `B32.PUSH` and `B32.END` (R51, R52). -/

namespace Sys2Proof.Machine

open Sys2Proof

/-- `t = (zext_12(ACC) << 5) | zext_12(v)`: the old bits then the five new ones (R51, R59). -/
def appendSymbol (acc : BitVec 7) (v : BitVec 5) : BitVec 12 :=
  (acc.setWidth 12 <<< 5) ||| v.setWidth 12

/-- `n >= 8`: emit the 8 oldest bits, keep the `n - 8` newest (R51). -/
def emitByte (t : BitVec 12) (n : Nat) (s : State) : State :=
  (s.setDecoder ((t.extractLsb' 0 (n - 8)).setWidth 7) (BitVec.ofNat 3 (n - 8))).respond (.byte (t.extractLsb' (n - 8) 8))

/-- `n <= 7`: keep all `n` bits (R51). -/
def keepBits (t : BitVec 12) (n : Nat) (s : State) : State :=
  (s.setDecoder (t.extractLsb' 0 7) (BitVec.ofNat 3 n)).respond .none

/-- A valid character with symbol `v` (R51). -/
def acceptSymbol (v : BitVec 5) (s : State) : State :=
  if 8 ≤ s.nb.toNat + 5 then emitByte (appendSymbol s.acc v) (s.nb.toNat + 5) s
  else keepBits (appendSymbol s.acc v) (s.nb.toNat + 5) s

/-- `B32.PUSH c` with `FLT = 0` (R51): a dropped character changes nothing and is answered `NONE`. -/
def pushChar (c : Byte) (s : State) : State :=
  match symbol c with
  | none => s.respond .none
  | some v => acceptSymbol v s

/-- `B32.END` with `FLT = 0` (R52): the residual bits are thrown away, whatever their value. -/
def endString (s : State) : State := (s.setDecoder 0 0).respond .none

/-- The meaning of `B32.PUSH c` (R51, R78). -/
def execB32Push (c : Byte) (s : State) : Host.Outcome State Fault Refusal :=
  .next (whenRunning (pushChar c) s)

/-- The meaning of `B32.END` (R52, R78). -/
def execB32End (s : State) : Host.Outcome State Fault Refusal :=
  .next (whenRunning endString s)

end Sys2Proof.Machine
end

