-- ==== Sys2Proof/Machine/Ttm.lean ====
section
/-! DEFINITION. Unit TTM, truncation and modulo: the meaning of `TTM.TRUNC` (R67). The unit is stateless (R69). -/

namespace Sys2Proof.Machine

open Sys2Proof

/-- `T`, the 31-bit truncated value carried in 32 bits (R64, R67). -/
def truncated (d : Digest) : BitVec 32 :=
  ((windowByte d 0 &&& msbMask).setWidth 32 <<< 24) ||| ((windowByte d 1).setWidth 32 <<< 16)
    ||| ((windowByte d 2).setWidth 32 <<< 8) ||| (windowByte d 3).setWidth 32

/-- `dt(d) = T` as a number (R64). -/
def dt (d : Digest) : Nat := (truncated d).toNat

/-- `C = T mod 1,000,000` (R65). -/
def codeOf (t : Nat) : Nat := t % 1000000

/-- `digit[k] = floor(C / 10^(5-k)) mod 10` (R66). -/
def digit (c : Nat) (k : Nat) : Nat := c / 10 ^ (5 - k) % 10

/-- `render(C) = S`, the six ASCII digit characters, leading zeros kept (R66). -/
def render (c : Nat) : CodeString := Vector.ofFn fun k => BitVec.ofNat 8 (0x30 + digit c k.val)

/-- The `CODE` response of a digest (R67). -/
def codeResponse (d : Digest) : Response :=
  .code (digestOffset d) (truncated d) (BitVec.ofNat 24 (codeOf (dt d))) (render (codeOf (dt d)))

/-- The meaning of `TTM.TRUNC d` (R67, R78). -/
def execTtmTrunc (d : Digest) (s : State) : Host.Outcome State Fault Refusal :=
  .next (whenRunning (State.respond (codeResponse d)) s)

end Sys2Proof.Machine
end

