-- ==== Sys2Proof/Machine/Dispatch.lean ====
section
/-! DEFINITION. One arm per command (R38). -/

namespace Sys2Proof.Machine

open Sys2Proof

-- The check of FLT (R78) is each meaning's own; framing and illegal opcodes are Machine/Fetch.lean's.
def exec (i : Instr) (s : State) : Host.Outcome State Fault Refusal :=
  match i with
  | .b32Push c => Sys2Proof.Machine.execB32Push c s
  | .b32End => Sys2Proof.Machine.execB32End s
  | .ttmTrunc d => Sys2Proof.Machine.execTtmTrunc d s

end Sys2Proof.Machine
end

