-- ==== Sys2Proof/Machine/Fetch.lean ====
section
/-! DEFINITION. What the block does next: the host's queue framed into whole inputs (R36, R38, R41) and reset events
(R86). The block fetches from no memory; it consumes what the host has sent, in order (R21, R32, R34). -/

namespace Sys2Proof.Machine

open Sys2Proof

/-- The bytes sent before the next reset event (R86: a reset discards what it finds incomplete). -/
def bytesBeforeReset : List Input → List Byte
  | [] => []
  | .byte b :: es => b :: bytesBeforeReset es
  | .reset :: _ => []

/-- The queue from the next reset event on. -/
def fromReset : List Input → List Input
  | [] => []
  | .byte _ :: es => fromReset es
  | .reset :: es => .reset :: es

/-- The queue after the bytes of one whole input are consumed, `rest` of the bytes before the next reset being left. -/
def State.consume (rest : List Byte) (s : State) : State :=
  { s with rx := rest.map Input.byte ++ fromReset s.rx }

/-- What stands at the head of the queue, with the state once it is consumed. -/
inductive Fetched where
  /-- a whole command -/
  | command (i : Instr) (s : State)
  /-- `Illegal(op)`, one byte (R38) -/
  | illegal (op : Byte) (s : State)
  /-- a reset event; a partial command before it is discarded (R86) -/
  | reset (s : State)
  /-- nothing, or a partial command with no reset behind it: the block holds (R41) -/
  | hold
  /-- a byte before the first reset (R87) -/
  | notLive
deriving DecidableEq, Repr

/-- No whole input stands before the next reset event: take that event, or hold (R41, R86). -/
def fetchReset (s : State) : Fetched :=
  match fromReset s.rx with
  | [] => .hold
  | .reset :: es => .reset { s with rx := es }
  | .byte _ :: _ => .hold

/-- Before the first reset only a reset event is taken (R87, R88). -/
def fetchNotLive (s : State) : Fetched :=
  match s.rx with
  | [] => .hold
  | .reset :: es => .reset { s with rx := es }
  | .byte _ :: _ => .notLive

/-- Frame the next input (R38, R41, R86). -/
def fetchLive (s : State) : Fetched :=
  match decode (bytesBeforeReset s.rx) with
  | .command i rest => .command i (s.consume rest)
  | .illegal op rest => .illegal op (s.consume rest)
  | .incomplete => fetchReset s

/-- What the block does next (R86, R87). -/
def fetch (s : State) : Fetched :=
  if s.live then fetchLive s else fetchNotLive s

/-- The bytes of exactly one input, at the head of a table-numbered word (R41, R92). -/
def inputOfWord (nbits w : Nat) : List Byte :=
  match bytesOfWord nbits w with
  | [] => []
  | op :: rest => op :: rest.take (inputLength op - 1)

/-- The queue with one input put in front of it, on a block that has been reset (log 6). -/
def State.putInput (bs : List Byte) (s : State) : State :=
  { s with live := true, rx := bs.map Input.byte ++ s.rx }

end Sys2Proof.Machine
end

