-- ==== Sys2Proof/Machine/Step.lean ====
section
/-! DEFINITION. One step: one whole input and its response (R14, R30, R32), or a reset event (R86), or a hold (R41). -/

namespace Sys2Proof.Machine

open Sys2Proof

/-- One step of the block. -/
def step (s : State) : Host.Outcome State Fault Refusal :=
  match fetch s with
  | .command i t => exec i t
  | .illegal op t => .next (answerIllegal op t)
  | .reset t => .next t.takeReset
  | .hold => .next s
  | .notLive => .fault .beforeFirstReset

/-- The state whose very next step runs the instruction of a table-numbered word: its bytes stand at the head of the
host's queue, and the block has been reset (log 6). -/
def State.withFetchWord (s : State) (nbits w : Nat) : State := s.putInput (inputOfWord nbits w)

end Sys2Proof.Machine
end

