-- ==== Sys2Proof/Machine/Run.lean ====
section
/-! DEFINITION. Runs (R95): several steps, the byte stream of a command sequence, and what the host reads from the
responses. -/

namespace Sys2Proof.Machine

open Sys2Proof

/-- `k` steps, stopping at the first fault or refusal. -/
def run : Nat → State → Host.Outcome State Fault Refusal
  | 0, s => .next s
  | k + 1, s =>
    match step s with
    | .next t => run k t
    | .fault r => .fault r
    | .refused r => .refused r

/-- The inputs of a command sequence: the bytes of each command, one command after the other (R32, R36). -/
def wire (is : List Instr) : List Input := is.flatMap fun i => (encode i).map Input.byte

/-- The responses sent between two states of a run (R37). -/
def newResponses (s t : State) : List Response := t.tx.drop s.tx.length

/-- The payload of a `BYTE` response (R37). -/
def payloadOf : Response → Option Byte
  | .none => none
  | .byte b => some b
  | .code _ _ _ _ => none
  | .fault _ => none
  | .halted => none

/-- The payloads of the `BYTE` responses, in issue order: the host's key (R9, R55). -/
def bytePayloads (rs : List Response) : List Byte := rs.filterMap payloadOf

/-- The bytes the host has received, in order (R32, R37). -/
def State.txBytes (s : State) : List Byte := s.tx.flatMap Response.bytes

end Sys2Proof.Machine
end

