-- ==== Sys2Proof/Machine/Assembler.lean ====
section
/-! DEFINITION. Listings: what the host does for each line (R42), the pseudo-instructions and their expansions (R43),
and the text of a line. -/

namespace Sys2Proof.Machine

open Sys2Proof

/-- The expansion of `B32.STR` and of `B32.STRX`: one push per character, then the string boundary (R43). -/
def strExpansion (s : List Byte) : List Instr := s.map Instr.b32Push ++ [.b32End]

/-- What the host does for one line (R42, R43). -/
def lineInputs : AsmLine → List Input
  | .command i => wire [i]
  | .pushChar x => wire [.b32Push x]
  | .str s => wire (strExpansion s)
  | .strX s => wire (strExpansion s)
  | .reset => [.reset]
  | .illegal op => [.byte op]

/-- What the host does for a listing. -/
def assemble (ls : List AsmLine) : List Input := ls.flatMap lineInputs

/-- The mnemonic of a command, upper case, the unit prefix included (R42). -/
def mnemonic : Instr → String
  | .b32Push _ => "B32.PUSH"
  | .b32End => "B32.END"
  | .ttmTrunc _ => "TTM.TRUNC"

/-- One hex digit, upper case (log 12). -/
def hexDigit (n : Nat) : Char := Char.ofNat (if n < 10 then 48 + n else 55 + n)

/-- `NN`, two hex digits (R42). -/
def hex2 (b : Byte) : List Char := [hexDigit (b.toNat / 16), hexDigit (b.toNat % 16)]

/-- Hex bytes, each with a space before it (R42). -/
def hexList (bs : List Byte) : List Char := bs.flatMap fun b => ' ' :: hex2 b

/-- The operand text of a command (R42). -/
def operandText : Instr → List Char
  | .b32Push c => ' ' :: '0' :: 'x' :: hex2 c
  | .b32End => []
  | .ttmTrunc d => hexList d.toList

/-- Characters as written. -/
def charsOf (s : List Byte) : List Char := s.map fun c => Char.ofNat c.toNat

/-- The text of a line (R42, R43), without a comment. -/
def lineText : AsmLine → String
  | .command i => mnemonic i ++ String.ofList (operandText i)
  | .pushChar x => "B32.PUSH '" ++ String.ofList (charsOf [x]) ++ "'"
  | .str s => "B32.STR \"" ++ String.ofList (charsOf s) ++ "\""
  | .strX s => "B32.STRX" ++ String.ofList (hexList s)
  | .reset => ".RESET"
  | .illegal op => ".ILLEGAL 0x" ++ String.ofList (hex2 op)

end Sys2Proof.Machine
end

