-- ==== Sys2Proof/Machine/Reference.lean ====
section
/-! DEFINITION. AASPEC's whole-string function `decode`, step by step as R44 writes it (R44 to R50): what unit B32D is
claimed to compute (R55). No instruction calls it. -/

namespace Sys2Proof.Machine

open Sys2Proof

/-- `PAD_CHAR`, `=` (R5). -/
def padChar : Byte := 0x3D

/-- Step 2: without the longest suffix made only of `=` (R44). -/
def stripPad (u : List Byte) : List Byte := (u.reverse.dropWhile (· == padChar)).reverse

/-- Step 4 for one index: its five bits, most significant first (R48). -/
def symbolBits (v : BitVec 5) : List Bool :=
  [v.getLsbD 4, v.getLsbD 3, v.getLsbD 2, v.getLsbD 1, v.getLsbD 0]

/-- Steps 1 to 3: the symbols of a string, padding stripped first (R44, R45, R46). -/
def stringSymbols (s : List Byte) : List (BitVec 5) := (stripPad (s.map upcase)).filterMap index

/-- Step 4: the bit string of a sequence of symbols (R48). -/
def bitString (vs : List (BitVec 5)) : List Bool := vs.flatMap symbolBits

/-- Bit `j` of a bit string as a number. -/
def bitAt (bits : List Bool) (j : Nat) : Nat := (bits.getD j false).toNat

/-- Step 5 for one group: byte `k` of the output, the first bit of the group being bit 7 (R44, R49). -/
def groupByte (bits : List Bool) (k : Nat) : Byte :=
  BitVec.ofNat 8 (bitAt bits (8 * k) * 128 + bitAt bits (8 * k + 1) * 64 + bitAt bits (8 * k + 2) * 32
    + bitAt bits (8 * k + 3) * 16 + bitAt bits (8 * k + 4) * 8 + bitAt bits (8 * k + 5) * 4
    + bitAt bits (8 * k + 6) * 2 + bitAt bits (8 * k + 7))

/-- Step 5: the whole groups of 8, a final group of 1 to 7 bits discarded (R49). -/
def sliceBytes (bits : List Bool) : List Byte := (List.range (bits.length / 8)).map (groupByte bits)

/-- `decode(s)` (R44). -/
def decodeString (s : List Byte) : List Byte := sliceBytes (bitString (stringSymbols s))

/-- The valid symbols one character at a time, without step 2 (R50). -/
def charSymbols (s : List Byte) : List (BitVec 5) := s.filterMap symbol

end Sys2Proof.Machine
end

