-- ==== Sys2Proof/Machine/HostSide.lean ====
section
/-! DEFINITION. What the host does around the block (R2, R7 to R13): the counter, the hash between the two units, and the
whole code computation, once as AASPEC's `generate` and once driven through the block. -/

namespace Sys2Proof.Machine

open Sys2Proof

/-- `counter = floor(nowUnixSeconds / 30)` (R7). -/
def counter (t : Nat) : Nat := t / 30

/-- The counter fits its 64 bits; other times are not modelled (R7, U7; log 8). -/
def timeInRange (t : Nat) : Bool := decide (counter t < 2 ^ 64)

/-- `counter_bytes`: 8 bytes, byte 0 holding bits 63 to 56 (R7). -/
def counterBytes (t : Nat) : List Byte :=
  (List.range 8).map fun k => BitVec.ofNat 8 (counter t / 256 ^ (7 - k))

/-- What one code request comes to. -/
inductive CodeResult where
  /-- the six characters (R66) -/
  | code (s : CodeString)
  /-- the hash primitive failed: no `TTM.TRUNC` is issued, "unable to generate code" (R11) -/
  | hashFailed
  /-- the counter does not fit 64 bits (U7; log 8) -/
  | timeOutOfRange
  /-- the block answered otherwise than with the expected response: the run has gone wrong (R95) -/
  | blockFailed
deriving DecidableEq, Repr

/-- AASPEC's `generate`, steps 1 to 7 (R8, R9, R63 to R66), on the reference functions; the empty key is hashed like
any other (R10). -/
def generate (secret : List Byte) (t : Nat) : CodeResult :=
  if timeInRange t then
    match Config.hmacSha1 (decodeString secret) (counterBytes t) with
    | none => .hashFailed
    | some d => .code (render (codeOf (dt d)))
  else .timeOutOfRange

/-- A decode run after a reset: `.RESET`, `B32.STR secret`; the key is the `BYTE` payloads (R9, R43, R95). -/
def keyFromBlock (secret : List Byte) (s : State) : Option (List Byte × State) :=
  match run (secret.length + 2) (s.send (assemble [.reset, .str secret])) with
  | .next t => some (bytePayloads (newResponses s t), t)
  | .fault _ => none
  | .refused _ => none

/-- A code run: one `TTM.TRUNC`, its result its `CODE` response (R95). -/
def codeFromBlock (d : Digest) (s : State) : CodeResult :=
  match run 1 (s.send (wire [.ttmTrunc d])) with
  | .next t =>
    match newResponses s t with
    | [.code _ _ _ c] => .code c
    | _ => .blockFailed
  | .fault _ => .blockFailed
  | .refused _ => .blockFailed

/-- The whole pipeline through the block (R2, R14; program P3 of 95_test_vectors.md). -/
def generateOnBlock (secret : List Byte) (t : Nat) (s : State) : CodeResult :=
  if timeInRange t then
    match keyFromBlock secret s with
    | none => .blockFailed
    | some (key, s1) =>
      match Config.hmacSha1 key (counterBytes t) with
      | none => .hashFailed
      | some d => codeFromBlock d s1
  else .timeOutOfRange

end Sys2Proof.Machine
end

