-- ==== Sys2Proof/Machine/Instances.lean ====
section
/-! DEFINITION. Several instances of the block (R84): `N_INSTANCES` is an argument, instances share nothing, and a model
of several is their independent product (decision D17; log 7). -/

namespace Sys2Proof.Machine

open Sys2Proof

/-- `n` instances, each with its own `ACC`, `NB`, `FLT` and its own command interface (R84). -/
abbrev Instances (n : Nat) := Vector State n

/-- All instances right after their resets. -/
def resetAll (n : Nat) : Instances n := Vector.replicate n State.reset

/-- The host sends to one instance (R84). -/
def sendAt {n : Nat} (k : Fin n) (ins : List Input) (b : Instances n) : Instances n := b.set k (b[k].send ins)

/-- One instance takes one step. -/
def stepAt {n : Nat} (k : Fin n) (b : Instances n) : Host.Outcome (Instances n) Fault Refusal :=
  match step b[k] with
  | .next t => .next (b.set k t)
  | .fault r => .fault r
  | .refused r => .refused r

/-- The instances step in the order of a schedule. -/
def runSchedule {n : Nat} : List (Fin n) → Instances n → Host.Outcome (Instances n) Fault Refusal
  | [], b => .next b
  | k :: ks, b =>
    match stepAt k b with
    | .next c => runSchedule ks c
    | .fault r => .fault r
    | .refused r => .refused r

end Sys2Proof.Machine
end

