-- ==== Sys2Proof/Safety.lean ====
section
/-! DEFINITION. The terms claims are stated in: the invariant of the decoder's registers (R19), the string boundary and
the clean run (R95), the residual bits as a list (R17, R19). -/

namespace Sys2Proof.Machine

open Sys2Proof

/-- Every bit of `ACC` at position `NB` or above is zero (R19). -/
abbrev State.Inv (s : State) : Prop := ∀ i : Fin 7, s.nb.toNat ≤ i.val → s.acc.getLsbD i.val = false

/-- The residual bits, the oldest first: `ACC[NB-1]` down to `ACC[0]` (R17). -/
def State.residual (s : State) : List Bool :=
  (List.range s.nb.toNat).map fun j => s.acc.getLsbD (s.nb.toNat - 1 - j)

/-- The decoder is at a string boundary and the block is running (R55, R95). -/
abbrev State.AtBoundary (s : State) : Prop := s.live = true ∧ s.flt = false ∧ s.acc = 0 ∧ s.nb = 0

/-- A response after which a run has gone wrong (R95). -/
def isBadResponse : Response → Bool
  | .none => false
  | .byte _ => false
  | .code _ _ _ _ => false
  | .fault _ => true
  | .halted => true

/-- A run without `FAULT` and `HALTED` responses (R95). -/
def cleanResponses (rs : List Response) : Bool := rs.all fun r => !isBadResponse r

/-- The characters the pushes of a command sequence present, in order (R55). -/
def pushedChars (is : List Instr) : List Byte :=
  is.filterMap fun i =>
    match i with
    | .b32Push c => some c
    | .b32End => none
    | .ttmTrunc _ => none

/-- `validCharCount` (R44). -/
def validCharCount (s : List Byte) : Nat := (charSymbols s).length

end Sys2Proof.Machine
end

