-- ==== Sys2Proof/Certificates/Slice0/Obligations.lean ====
section
/-! DEFINITION. The statements for the provers, taken from the numbered rules of spec/. Each docstring names the rule it
formalises. -/

open Sys2Proof Sys2Proof.Machine

/-! ## Framing and encoding -/

/-- R36, R38, R39, R40: every command is well formed, and its bytes, whatever follows them, decode to it with every
operand bit and leave what follows. -/
def Obligations.DecodeOfEncodeIsTheCommand : Prop :=
  ∀ (i : Instr) (rest : List Byte), i.wellFormed = true ∧ decode (encode i ++ rest) = .command i rest

/-- R36, R38: what the decoder reads as a command is exactly the bytes that command encodes to. -/
def Obligations.DecodedBytesAreTheEncoding : Prop :=
  ∀ (bs : List Byte) (i : Instr) (rest : List Byte), decode bs = .command i rest → bs = encode i ++ rest

/-- R36: the three formats, the opcode byte first, byte `k + 1` of format D being `d[k]`. -/
def Obligations.CommandFormats : Prop :=
  (∀ c : Byte, encode (.b32Push c) = [0x01, c]) ∧ encode .b32End = [0x02] ∧
    ∀ d : Digest, (encode (.ttmTrunc d)).length = 21 ∧ (encode (.ttmTrunc d))[0]? = some 0x10 ∧
      ∀ k : Fin 20, (encode (.ttmTrunc d))[k.val + 1]? = some d[k]

/-- R38: the decoder, arm by arm; every byte but 0x01, 0x02 and 0x10 is `Illegal(op)` and consumes one byte. -/
def Obligations.OpcodeMap : Prop :=
  decode [] = .incomplete ∧ decode [0x01] = .incomplete ∧
    (∀ (c : Byte) (rest : List Byte), decode (0x01 :: c :: rest) = .command (.b32Push c) rest) ∧
    (∀ rest : List Byte, decode (0x02 :: rest) = .command .b32End rest) ∧
    (∀ (d : Digest) (rest : List Byte), decode (0x10 :: (d.toList ++ rest)) = .command (.ttmTrunc d) rest) ∧
    (∀ ops : List Byte, ops.length < 20 → decode (0x10 :: ops) = .incomplete) ∧
    ∀ (op : Byte) (rest : List Byte), op ≠ 0x01 → op ≠ 0x02 → op ≠ 0x10 → decode (op :: rest) = .illegal op rest

/-- R38, R40: command bytes written out from the encoding tables decode to what they stand for. The last clause rests on no
rule: it is the table-word convention of log 6 (a word numbered as opcode_table.json numbers it, the first byte sent in its
LOW eight bits), where R36 writes a command as one bit pattern with the first byte leftmost. -/
def Obligations.WrittenWordsDecode : Prop :=
  decode [0x01, 0x4A] = .command (.b32Push 0x4A) [] ∧ decode [0x02] = .command .b32End [] ∧
    decode [0x10, 0x1F, 0x86, 0x98, 0x69, 0x0E, 0x02, 0xCA, 0x16, 0x61, 0x85, 0x50, 0xEF, 0x7F, 0x19, 0xDA, 0x8E, 0x94, 0x5B, 0x55, 0x5A]
      = .command (.ttmTrunc #v[0x1F, 0x86, 0x98, 0x69, 0x0E, 0x02, 0xCA, 0x16, 0x61, 0x85, 0x50, 0xEF, 0x7F, 0x19, 0xDA, 0x8E, 0x94, 0x5B, 0x55, 0x5A]) [] ∧
    decode [0x00] = .illegal 0x00 [] ∧ decode [0xFF, 0x01] = .illegal 0xFF [0x01] ∧
    decodeTableWord 16 0x4A01 = some (.b32Push 0x4A)

/-- R41: a byte sequence is an incomplete command exactly when bytes of some command are still missing. -/
def Obligations.IncompleteMeansBytesAreMissing : Prop :=
  ∀ p : List Byte, decode p = .incomplete ↔ ∃ (i : Instr) (q : List Byte), q ≠ [] ∧ encode i = p ++ q

/-- R37: the status byte alone decides the length, so the host reads every response back from the byte stream. -/
def Obligations.ResponsesParseBack : Prop :=
  ∀ (r : Response) (rest : List Byte), parseResponse (r.bytes ++ rest) = some (r, rest)

/-- R37, R28: status bytes, lengths, and the payload numbers most significant byte first. -/
def Obligations.ResponseLayout : Prop :=
  Response.bytes .none = [0x00] ∧ (∀ b : Byte, Response.bytes (.byte b) = [0x01, b]) ∧
    (∀ op : Byte, Response.bytes (.fault op) = [0xE0, op]) ∧ Response.bytes .halted = [0xEF] ∧
    ∀ (o : Byte) (t : BitVec 32) (c : BitVec 24) (s : CodeString),
      (Response.bytes (.code o t c s)).length = 15 ∧
      Response.bytes (.code o t c s) =
        [0x02, o, BitVec.ofNat 8 (t.toNat / 2 ^ 24), BitVec.ofNat 8 (t.toNat / 2 ^ 16), BitVec.ofNat 8 (t.toNat / 2 ^ 8),
          BitVec.ofNat 8 t.toNat, BitVec.ofNat 8 (c.toNat / 2 ^ 16), BitVec.ofNat 8 (c.toNat / 2 ^ 8), BitVec.ofNat 8 c.toNat,
          s[0], s[1], s[2], s[3], s[4], s[5]]

/-- R39: on a 160-bit bus `d[0]` is the most significant byte. -/
def Obligations.BusDigestIsBigEndian : Prop :=
  ∀ bus : BitVec 160, (digestOfBus bus).toList.foldl (fun n b => 256 * n + b.toNat) 0 = bus.toNat

/-! ## Steps -/

/-- R14, R32, R38: where the bytes the host has sent decode to a command, the step consumes exactly the command's bytes
and is `exec` of that command; and it does so whenever a command's bytes stand at the head of the queue. (The queue is the
model's own field, log 1.) -/
def Obligations.StepRunsTheDecodedCommand : Prop :=
  (∀ (s : State) (i : Instr) (rest : List Byte), s.live = true → decode (bytesBeforeReset s.rx) = .command i rest →
    ∃ es : List Input, s.rx = (encode i).map Input.byte ++ es ∧ step s = exec i { s with rx := es }) ∧
  ∀ (s : State) (i : Instr) (es : List Input), s.live = true → s.rx = (encode i).map Input.byte ++ es →
    step s = exec i { s with rx := es }

/-- The model's convention for placing a word (log 6): the very next step runs the instruction of the word. -/
def Obligations.PlacedWordRunsNext : Prop :=
  ∀ (s : State) (nbits w : Nat) (i : Instr), decodeTableWord nbits w = some i →
    step (s.withFetchWord nbits w) = exec i { s with live := true }

/-- R76: entering `IllegalCommand(op)` sets `FLT`, keeps `ACC` and `NB`, responds `E0 op`, and changes nothing else. -/
def Obligations.IllegalCommandEntry : Prop :=
  ∀ (s : State) (op : Byte) (es : List Input), s.live = true → s.flt = false → s.rx = .byte op :: es →
    op ≠ 0x01 → op ≠ 0x02 → op ≠ 0x10 →
    step s = .next { s with flt := true, rx := es, tx := s.tx ++ [.fault op] } ∧ (Response.fault op).bytes = [0xE0, op]

/-- R74: with `FLT = 0`, the exception is raised exactly when the next input's opcode byte is not 0x01, 0x02 or 0x10. -/
def Obligations.IllegalCommandRaisedExactlyWhen : Prop :=
  ∀ s : State, s.live = true → s.flt = false →
    ((∃ t : State, step s = .next t ∧ t.flt = true) ↔
      ∃ (op : Byte) (es : List Input), s.rx = .byte op :: es ∧ op ≠ 0x01 ∧ op ≠ 0x02 ∧ op ≠ 0x10)

/-- R22: `FLT` is set by the exception and by nothing else, and cleared by a reset event and by nothing else. -/
def Obligations.FltChangesOnlyByFaultAndReset : Prop :=
  ∀ s t : State, step s = .next t →
    (s.flt = false → t.flt = true → ∃ (op : Byte) (es : List Input), s.rx = .byte op :: es ∧ formatOf op = none ∧
      t = { s with flt := true, rx := es, tx := s.tx ++ [.fault op] }) ∧
    (s.flt = true → t.flt = false → ∃ (p : List Byte) (es : List Input), s.rx = p.map Input.byte ++ .reset :: es ∧
      t = { acc := 0, nb := 0, flt := false, live := true, rx := es, tx := s.tx })

/-- R78: while `FLT = 1` every command and every illegal byte is framed as usual, answered `EF`, and changes nothing; only
reset leaves the halted condition. -/
def Obligations.HaltedInputsAreAnsweredHalted : Prop :=
  (Response.halted).bytes = [0xEF] ∧
  (∀ (i : Instr) (s : State), s.flt = true → exec i s = .next { s with tx := s.tx ++ [.halted] }) ∧
  (∀ (i : Instr) (s : State) (es : List Input), s.live = true → s.flt = true → s.rx = (encode i).map Input.byte ++ es →
    step s = .next { s with rx := es, tx := s.tx ++ [.halted] }) ∧
  (∀ (op : Byte) (s : State) (es : List Input), s.live = true → s.flt = true → op ≠ 0x01 → op ≠ 0x02 → op ≠ 0x10 →
    s.rx = .byte op :: es → step s = .next { s with rx := es, tx := s.tx ++ [.halted] }) ∧
  ∀ s t : State, s.flt = true → step s = .next t → t.flt = false → Input.reset ∈ s.rx

/-- R78 over a run: without a reset event, a halted block stays halted, keeps `ACC` and `NB`, and answers only `HALTED`. -/
def Obligations.HaltedUntilReset : Prop :=
  ∀ (k : Nat) (s t : State), s.flt = true → Input.reset ∉ s.rx → run k s = .next t →
    t.flt = true ∧ t.acc = s.acc ∧ t.nb = s.nb ∧ ∃ n : Nat, t.tx = s.tx ++ List.replicate n .halted

/-- R86: a reset event, alone or after a partial command (which is discarded without a response), zeroes `ACC`, `NB` and
`FLT` and nothing else; and a step that clears `FLT` took such a reset event. -/
def Obligations.ResetEventZeroesTheState : Prop :=
  (∀ (s : State) (es : List Input), s.rx = .reset :: es →
    step s = .next { acc := 0, nb := 0, flt := false, live := true, rx := es, tx := s.tx }) ∧
  (∀ (s : State) (p : List Byte) (es : List Input), s.live = true → decode p = .incomplete →
    s.rx = p.map Input.byte ++ .reset :: es →
    step s = .next { acc := 0, nb := 0, flt := false, live := true, rx := es, tx := s.tx }) ∧
  ∀ s t : State, step s = .next t → s.flt = true → t.flt = false →
    ∃ (p : List Byte) (es : List Input), s.rx = p.map Input.byte ++ .reset :: es ∧
      (s.live = true → decode p = .incomplete) ∧ (s.live = false → p = []) ∧
      t = { acc := 0, nb := 0, flt := false, live := true, rx := es, tx := s.tx }

/-- R41: with operand bytes missing and no reset, the block holds: no state change and no response. (That a hold is a
step to the same state is the model's, log 4.) -/
def Obligations.PartialCommandHolds : Prop :=
  ∀ (s : State) (i : Instr) (p q : List Byte), s.live = true → encode i = p ++ q → q ≠ [] →
    s.rx = p.map Input.byte → step s = .next s

/-- R25: the values after reset; and until a reset has happened no byte of the host makes a step. -/
def Obligations.ResetValues : Prop :=
  State.reset.acc = 0 ∧ State.reset.nb = 0 ∧ State.reset.flt = false ∧
    ∀ (s t : State) (b : Byte) (es : List Input), s.live = false → s.rx = .byte b :: es → step s ≠ .next t

/-- R87: before the first reset no byte is executed; the only step that changes anything takes a reset event. (That a byte
stops the model by a fault is the model's, log 3.) -/
def Obligations.NoCommandStepBeforeReset : Prop :=
  (∀ (s : State) (b : Byte) (es : List Input), s.live = false → s.rx = .byte b :: es → step s = .fault .beforeFirstReset) ∧
  ∀ s t : State, s.live = false → step s = .next t →
    (t = s ∧ s.rx = []) ∨ ∃ es : List Input, s.rx = .reset :: es ∧
      t = { acc := 0, nb := 0, flt := false, live := true, rx := es, tx := s.tx }

/-- R32, R37, R38, R41: a step consumes the bytes of exactly one command, or exactly one unassigned byte, and sends exactly
one response; or it takes a reset event, discarding the bytes of a partial command in front of it, and sends none; or it is a
hold, with nothing but a partial command queued, and sends none. (That a hold is a step to the same state is the model's,
log 4; that nothing but a reset event is taken before the first reset is R87's.) -/
def Obligations.OneResponsePerInput : Prop :=
  ∀ s t : State, step s = .next t →
    (s.live = true ∧ ∃ (i : Instr) (r : Response), s.rx = (encode i).map Input.byte ++ t.rx ∧ t.tx = s.tx ++ [r]) ∨
    (s.live = true ∧ ∃ (op : Byte) (r : Response), op ≠ 0x01 ∧ op ≠ 0x02 ∧ op ≠ 0x10 ∧ s.rx = .byte op :: t.rx ∧
      t.tx = s.tx ++ [r]) ∨
    (∃ (p : List Byte) (es : List Input), s.rx = p.map Input.byte ++ .reset :: es ∧
      (s.live = true → decode p = .incomplete) ∧ (s.live = false → p = []) ∧
      t = { acc := 0, nb := 0, flt := false, live := true, rx := es, tx := s.tx }) ∨
    (t = s ∧ ∃ p : List Byte, s.rx = p.map Input.byte ∧ (s.live = true → decode p = .incomplete) ∧ (s.live = false → p = []))

/-- R95: a run in which no response is `FAULT` or `HALTED` keeps `FLT = 0`. -/
def Obligations.CleanRunsKeepRunning : Prop :=
  ∀ (k : Nat) (s t : State), s.flt = false → run k s = .next t → cleanResponses (newResponses s t) = true → t.flt = false

/-! ## The commands -/

/-- R51: `B32.PUSH c` for every character and every state: dropped, a byte completed, no byte completed, halted. `t` is
`32 * ACC + v`, `n` is `NB + 5`. -/
def Obligations.PushPresentsOneCharacter : Prop :=
  ∀ (s : State) (c : Byte) (v : Nat),
    (s.flt = true → exec (.b32Push c) s = .next { s with tx := s.tx ++ [.halted] }) ∧
    (s.flt = false → ¬(0x41 ≤ c.toNat ∧ c.toNat ≤ 0x5A) → ¬(0x61 ≤ c.toNat ∧ c.toNat ≤ 0x7A) → ¬(0x32 ≤ c.toNat ∧ c.toNat ≤ 0x37) →
      exec (.b32Push c) s = .next { s with tx := s.tx ++ [.none] }) ∧
    (s.flt = false →
      ((0x41 ≤ c.toNat ∧ c.toNat ≤ 0x5A ∧ v = c.toNat - 0x41) ∨ (0x61 ≤ c.toNat ∧ c.toNat ≤ 0x7A ∧ v = c.toNat - 0x61) ∨
        (0x32 ≤ c.toNat ∧ c.toNat ≤ 0x37 ∧ v = c.toNat - 0x32 + 26)) →
      (8 ≤ s.nb.toNat + 5 → exec (.b32Push c) s = .next { s with
          acc := BitVec.ofNat 7 ((32 * s.acc.toNat + v) % 2 ^ (s.nb.toNat + 5 - 8)),
          nb := BitVec.ofNat 3 (s.nb.toNat + 5 - 8),
          tx := s.tx ++ [.byte (BitVec.ofNat 8 ((32 * s.acc.toNat + v) / 2 ^ (s.nb.toNat + 5 - 8)))] }) ∧
      (s.nb.toNat + 5 < 8 → exec (.b32Push c) s = .next { s with
          acc := BitVec.ofNat 7 (32 * s.acc.toNat + v), nb := BitVec.ofNat 3 (s.nb.toNat + 5), tx := s.tx ++ [.none] }))

/-- R54: the eight rows, for a valid character in a state that meets the invariant of R19; bits of `ACC` the row does not
list are 0. -/
def Obligations.PushTableByNb : Prop :=
  ∀ (s : State) (c : Byte) (v : BitVec 5) (t : BitVec 12), s.Inv → s.flt = false → index (upcase c) = some v →
    t = ((s.acc.setWidth 12 <<< 5) ||| v.setWidth 12) →
    (s.nb = 0 → exec (.b32Push c) s = .next { s with acc := (t.extractLsb' 0 5).setWidth 7, nb := 5, tx := s.tx ++ [.none] }) ∧
    (s.nb = 1 → exec (.b32Push c) s = .next { s with acc := (t.extractLsb' 0 6).setWidth 7, nb := 6, tx := s.tx ++ [.none] }) ∧
    (s.nb = 2 → exec (.b32Push c) s = .next { s with acc := t.extractLsb' 0 7, nb := 7, tx := s.tx ++ [.none] }) ∧
    (s.nb = 3 → exec (.b32Push c) s = .next { s with acc := 0, nb := 0, tx := s.tx ++ [.byte (t.extractLsb' 0 8)] }) ∧
    (s.nb = 4 → exec (.b32Push c) s = .next { s with
      acc := (t.extractLsb' 0 1).setWidth 7, nb := 1, tx := s.tx ++ [.byte (t.extractLsb' 1 8)] }) ∧
    (s.nb = 5 → exec (.b32Push c) s = .next { s with
      acc := (t.extractLsb' 0 2).setWidth 7, nb := 2, tx := s.tx ++ [.byte (t.extractLsb' 2 8)] }) ∧
    (s.nb = 6 → exec (.b32Push c) s = .next { s with
      acc := (t.extractLsb' 0 3).setWidth 7, nb := 3, tx := s.tx ++ [.byte (t.extractLsb' 3 8)] }) ∧
    (s.nb = 7 → exec (.b32Push c) s = .next { s with
      acc := (t.extractLsb' 0 4).setWidth 7, nb := 4, tx := s.tx ++ [.byte (t.extractLsb' 4 8)] })

/-- R59, R19: the list form of the residual bits: append the five bits of `v`; with 8 or more, remove the first 8 and emit
them as a byte, first bit as bit 7. -/
def Obligations.PushOnTheListOfBits : Prop :=
  ∀ (s : State) (c : Byte) (v : BitVec 5), s.flt = false → index (upcase c) = some v →
    ∃ t : State, exec (.b32Push c) s = .next t ∧
      (8 ≤ (s.residual ++ symbolBits v).length →
        t.residual = (s.residual ++ symbolBits v).drop 8 ∧ t.tx = s.tx ++ [.byte (groupByte (s.residual ++ symbolBits v) 0)]) ∧
      ((s.residual ++ symbolBits v).length < 8 →
        t.residual = s.residual ++ symbolBits v ∧ t.tx = s.tx ++ [.none])

/-- R52: `B32.END` clears `ACC` and `NB`, whatever they held, and answers `NONE`; halted, it changes nothing. -/
def Obligations.EndClearsTheDecoder : Prop :=
  ∀ s : State,
    (s.flt = false → exec .b32End s = .next { s with acc := 0, nb := 0, tx := s.tx ++ [.none] }) ∧
    (s.flt = true → exec .b32End s = .next { s with tx := s.tx ++ [.halted] })

/-- R67 with R63 to R66, in plain arithmetic: offset, `T`, `C` and the six digit characters of every digest. -/
def Obligations.TruncComputesTheCode : Prop :=
  ∀ (s : State) (d : Digest) (w0 w1 w2 w3 t c : Nat),
    w0 = (d[d[19].toNat % 16]'(by omega)).toNat → w1 = (d[d[19].toNat % 16 + 1]'(by omega)).toNat →
    w2 = (d[d[19].toNat % 16 + 2]'(by omega)).toNat → w3 = (d[d[19].toNat % 16 + 3]'(by omega)).toNat →
    t = w0 % 128 * 2 ^ 24 + w1 * 2 ^ 16 + w2 * 2 ^ 8 + w3 → c = t % 1000000 →
    (s.flt = false → exec (.ttmTrunc d) s = .next { s with tx := s.tx ++
      [.code (BitVec.ofNat 8 (d[19].toNat % 16)) (BitVec.ofNat 32 t) (BitVec.ofNat 24 c)
        #v[BitVec.ofNat 8 (0x30 + c / 100000), BitVec.ofNat 8 (0x30 + c / 10000 % 10), BitVec.ofNat 8 (0x30 + c / 1000 % 10),
          BitVec.ofNat 8 (0x30 + c / 100 % 10), BitVec.ofNat 8 (0x30 + c / 10 % 10), BitVec.ofNat 8 (0x30 + c % 10)]] }) ∧
    (s.flt = true → exec (.ttmTrunc d) s = .next { s with tx := s.tx ++ [.halted] })

/-- R70: for every digest the response is `CODE`, its numbers in their ranges, its six characters the decimal digits of
`C`. -/
def Obligations.TruncIsAlwaysWellFormed : Prop :=
  ∀ (d : Digest) (s : State), s.flt = false → ∃ (o : Byte) (t : BitVec 32) (c : BitVec 24) (str : CodeString),
    exec (.ttmTrunc d) s = .next { s with tx := s.tx ++ [.code o t c str] } ∧
    o.toNat ≤ 15 ∧ t.toNat ≤ 2 ^ 31 - 1 ∧ c.toNat ≤ 999999 ∧ c.toNat = t.toNat % 1000000 ∧
    (∀ k : Fin 6, 0x30 ≤ str[k].toNat ∧ str[k].toNat ≤ 0x39) ∧ render c.toNat = str ∧
    c.toNat = (str[0].toNat - 0x30) * 100000 + (str[1].toNat - 0x30) * 10000 + (str[2].toNat - 0x30) * 1000
      + (str[3].toNat - 0x30) * 100 + (str[4].toNat - 0x30) * 10 + (str[5].toNat - 0x30)

/-- R64: every value from 0 to `2^31 - 1` is the truncated value of some digest. -/
def Obligations.EveryTruncatedValueIsReached : Prop :=
  ∀ x : Nat, x < 2 ^ 31 → ∃ d : Digest, dt d = x

/-- R66: `render` is injective on 0 to 999,999. -/
def Obligations.RenderIsInjective : Prop :=
  ∀ a b : Nat, a ≤ 999999 → b ≤ 999999 → render a = render b → a = b

/-- R27: the low nibble of `d[19]` and the window, less bit 7 of its first byte, decide the whole effect. -/
def Obligations.TruncReadsOnlyOffsetAndWindow : Prop :=
  ∀ (d e : Digest) (s : State) (o : Nat) (ho : o < 16), d[19].toNat % 16 = o → e[19].toNat % 16 = o →
    d[o].toNat % 128 = e[o].toNat % 128 → d[o + 1] = e[o + 1] → d[o + 2] = e[o + 2] → d[o + 3] = e[o + 3] →
    exec (.ttmTrunc d) s = exec (.ttmTrunc e) s

/-- R69: `TTM.TRUNC` reads no state but `FLT` and writes none: its response is a function of its operand alone. -/
def Obligations.TruncIsStateless : Prop :=
  ∀ d : Digest, ∃ r : Response, ∀ s : State,
    (s.flt = false → exec (.ttmTrunc d) s = .next { s with tx := s.tx ++ [r] }) ∧
    (s.flt = true → exec (.ttmTrunc d) s = .next { s with tx := s.tx ++ [.halted] })

/-- R53, R72: for every character and every digest the three commands complete normally, from every running state. -/
def Obligations.NoExceptionDependsOnData : Prop :=
  ∀ (i : Instr) (s : State), s.flt = false → ∃ t : State, exec i s = .next t ∧ t.flt = false

/-- The frame of the three commands (R15, R22, R37, R69, R78): `FLT`, the queue and the live bit are unchanged; exactly one
response is sent, of the kinds R37 lists; `TTM.TRUNC`, a dropped character and a halted block leave `ACC` and `NB` alone.
The block has no memory, so no byte of memory can change (R26). -/
def Obligations.CommandFrame : Prop :=
  ∀ (i : Instr) (s t : State), exec i s = .next t →
    t.flt = s.flt ∧ t.live = s.live ∧ t.rx = s.rx ∧
    (∃ r : Response, t.tx = s.tx ++ [r] ∧ (r = .halted ↔ s.flt = true) ∧
      (s.flt = false → (∀ c, i = .b32Push c → r = .none ∨ ∃ b, r = .byte b) ∧ (i = .b32End → r = .none) ∧
        ∀ d, i = .ttmTrunc d → ∃ o x c str, r = .code o x c str)) ∧
    (s.flt = true → t.acc = s.acc ∧ t.nb = s.nb) ∧
    (∀ d, i = .ttmTrunc d → t.acc = s.acc ∧ t.nb = s.nb) ∧
    ∀ c, i = .b32Push c → index (upcase c) = none → t.acc = s.acc ∧ t.nb = s.nb

/-- R17, R18, R93: a step that changes `ACC` or `NB` consumed a `B32.PUSH` of a valid character or a `B32.END`, the block
running, or took a reset event (in front of which only a partial command's bytes, or before the first reset none, may
stand); so a fault, a `TTM.TRUNC` and a halted input do not. -/
def Obligations.WhoWritesTheDecoder : Prop :=
  ∀ s t : State, step s = .next t → (t.acc ≠ s.acc ∨ t.nb ≠ s.nb) →
    (∃ c : Byte, s.rx = .byte 0x01 :: .byte c :: t.rx ∧ s.live = true ∧ s.flt = false ∧ index (upcase c) ≠ none ∧
      t.flt = false) ∨
    (s.rx = .byte 0x02 :: t.rx ∧ s.live = true ∧ s.flt = false ∧ t.acc = 0 ∧ t.nb = 0 ∧ t.flt = false) ∨
    (∃ (p : List Byte) (es : List Input), s.rx = p.map Input.byte ++ .reset :: es ∧
      (s.live = true → decode p = .incomplete) ∧ (s.live = false → p = []) ∧
      t = { acc := 0, nb := 0, flt := false, live := true, rx := es, tx := s.tx })

/-- The note on decision D24 (92_eei_decisions.md): bits of `ACC` at `NB` and above never reach a response, nor a bit of
`ACC` below the new `NB`. -/
def Obligations.StaleBitsNeverShow : Prop :=
  ∀ (i : Instr) (s t : State) (a : BitVec 7), (∀ j : Fin 7, j.val < s.nb.toNat → a.getLsbD j.val = s.acc.getLsbD j.val) →
    exec i s = .next t → ∃ a' : BitVec 7, exec i { s with acc := a } = .next { t with acc := a' } ∧
      ∀ j : Fin 7, j.val < t.nb.toNat → a'.getLsbD j.val = t.acc.getLsbD j.val

/-! ## The invariant -/

/-- R19: every step keeps `ACC[6:NB] = 0`, from every state that has it. -/
def Obligations.StepKeepsTheInvariant : Prop :=
  ∀ s t : State, s.Inv → step s = .next t → t.Inv

/-- R19: the invariant is true after reset. -/
def Obligations.ResetMeetsTheInvariant : Prop := State.reset.Inv

/-! ## Characters and the reference function -/

/-- R45: ASCII-only uppercasing. -/
def Obligations.UppercaseIsAsciiOnly : Prop :=
  ∀ c : Byte, (0x61 ≤ c.toNat ∧ c.toNat ≤ 0x7A → (upcase c).toNat = c.toNat - 0x20) ∧
    (¬(0x61 ≤ c.toNat ∧ c.toNat ≤ 0x7A) → upcase c = c)

/-- R46: `index` is the position in the 32-character alphabet, and 58 of the 256 characters are valid. -/
def Obligations.IndexIsThePositionInTheAlphabet : Prop :=
  (∀ u : Byte, (index u).map BitVec.toNat =
    [0x41, 0x42, 0x43, 0x44, 0x45, 0x46, 0x47, 0x48, 0x49, 0x4A, 0x4B, 0x4C, 0x4D, 0x4E, 0x4F, 0x50, 0x51, 0x52, 0x53, 0x54,
      0x55, 0x56, 0x57, 0x58, 0x59, 0x5A, 0x32, 0x33, 0x34, 0x35, 0x36, 0x37].idxOf? u) ∧
  ((List.range 256).filter fun n => (symbol (BitVec.ofNat 8 n)).isSome).length = 58

/-- R50: step 2 of `decode` has no effect of its own; padding anywhere decodes without complaint. -/
def Obligations.PadStripHasNoEffect : Prop :=
  (∀ s : List Byte, stringSymbols s = charSymbols s ∧ decodeString s = sliceBytes (bitString (charSymbols s))) ∧
  decodeString [0x4D, 0x5A, 0x3D, 0x58, 0x57, 0x36] = [0x66, 0x6F, 0x6F] ∧
  decodeString [0x3D, 0x4D, 0x5A, 0x58, 0x57, 0x36] = [0x66, 0x6F, 0x6F] ∧
  decodeString [0x4D, 0x5A, 0x58, 0x57, 0x36, 0x3D, 0x3D, 0x3D] = [0x66, 0x6F, 0x6F]

/-- R44, R49: the output of `decode` has `floor(5 * validCharCount / 8)` bytes. -/
def Obligations.DecodeLength : Prop :=
  ∀ s : List Byte, (decodeString s).length = 5 * validCharCount s / 8

/-- R56: `decode` of the empty string and of an all-invalid string is empty, and `decode` does not tell upper from lower
case, nor does it see dropped characters. -/
def Obligations.DecodeIgnoresCaseAndInvalid : Prop :=
  decodeString [] = [] ∧
  (∀ s : List Byte, (∀ c ∈ s, index (upcase c) = none) → decodeString s = []) ∧
  (∀ s : List Byte, decodeString (s.map upcase) = decodeString s) ∧
  ∀ s : List Byte, decodeString (s.filter fun c => (index (upcase c)).isSome) = decodeString s

/-! ## Streaming -/

/-- R47, R51: any number of dropped characters, anywhere, changes neither `ACC` nor `NB`; each is answered `NONE`. -/
def Obligations.DroppedCharactersVanish : Prop :=
  ∀ (s : State) (cs : List Byte) (es : List Input), s.live = true → s.flt = false → (∀ c ∈ cs, index (upcase c) = none) →
    s.rx = wire (cs.map Instr.b32Push) ++ es →
    run cs.length s = .next { s with rx := es, tx := s.tx ++ List.replicate cs.length .none }

/-- R55: from a string boundary, pushes with `TTM.TRUNC` interleaved anywhere return `decode` of the pushed characters in
their `BYTE` payloads, `floor(5k/8)` of them; then `NB` is `(5k) mod 8` and `ACC` holds the last `NB` bits of the bit
string; and a following `B32.END` answers `NONE` and restores the boundary. -/
def Obligations.StreamingAgreesWithDecode : Prop :=
  ∀ (s : State) (is : List Instr), s.AtBoundary → (∀ i ∈ is, i ≠ .b32End) → s.rx = wire is →
    ∃ t : State, run is.length s = .next t ∧
      (∃ rs : List Response, rs.length = is.length ∧ t.tx = s.tx ++ rs ∧ bytePayloads rs = decodeString (pushedChars is) ∧
        (bytePayloads rs).length = 5 * validCharCount (pushedChars is) / 8) ∧
      t.nb.toNat = 5 * validCharCount (pushedChars is) % 8 ∧
      t.residual = (bitString (stringSymbols (pushedChars is))).drop (8 * (5 * validCharCount (pushedChars is) / 8)) ∧
      t.Inv ∧ t.flt = false ∧ t.live = true ∧ t.rx = [] ∧
      step (t.send (wire [.b32End])) = .next { t with acc := 0, nb := 0, tx := t.tx ++ [.none] }

/-- R43: `B32.STR` (and `B32.STRX`) is one push per character, then `B32.END`, which stands alone for the empty string; from
a string boundary it returns `decode` of its string and ends at a string boundary, whatever is queued behind it. -/
def Obligations.StringExpansionDecodes : Prop :=
  lineInputs (.str []) = [.byte 0x02] ∧
  (∀ (c : Byte) (str : List Byte), lineInputs (.str (c :: str)) = .byte 0x01 :: .byte c :: lineInputs (.str str)) ∧
  ∀ (s : State) (str : List Byte) (es : List Input), s.AtBoundary → s.rx = lineInputs (.str str) ++ es →
    lineInputs (.strX str) = lineInputs (.str str) ∧
    ∃ rs : List Response, bytePayloads rs = decodeString str ∧
      run (str.length + 1) s = .next { s with rx := es, tx := s.tx ++ rs }

/-- R60: two strings each ended by `B32.END` decode to `decode(s1)` and `decode(s2)`; without the `B32.END` between them the
output is `decode(s1 ++ s2)`, which is another one for `77` and `MY`. -/
def Obligations.TwoStringsInSequence : Prop :=
  (∀ (s : State) (s1 s2 : List Byte), s.AtBoundary → s.rx = wire (strExpansion s1 ++ strExpansion s2) →
    ∃ t : State, run (s1.length + 1 + (s2.length + 1)) s = .next t ∧
      bytePayloads (newResponses s t) = decodeString s1 ++ decodeString s2 ∧ t.AtBoundary) ∧
  (∀ (s : State) (s1 s2 : List Byte), s.AtBoundary → s.rx = wire (s1.map Instr.b32Push ++ strExpansion s2) →
    ∃ t : State, run (s1.length + (s2.length + 1)) s = .next t ∧
      bytePayloads (newResponses s t) = decodeString (s1 ++ s2) ∧ t.AtBoundary) ∧
  decodeString ([0x37, 0x37] ++ [0x4D, 0x59]) ≠ decodeString [0x37, 0x37] ++ decodeString [0x4D, 0x59]

/-! ## Instances and the host -/

/-- R84: whatever the order in which the host lets the instances step, each instance ends where it would alone; and what the
host sends to one instance reaches no other. -/
def Obligations.InstancesAreIndependent : Prop :=
  (∀ (n : Nat) (ks : List (Fin n)) (b e : Instances n),
    runSchedule ks b = .next e ↔ ∀ k : Fin n, run (ks.count k) b[k] = .next e[k]) ∧
  ∀ (n : Nat) (k j : Fin n) (ins : List Input) (b : Instances n),
    (sendAt k ins b)[j] = if k = j then b[j].send ins else b[j]

/-- R7: `counter_bytes` is the counter as an 8-byte big-endian number. -/
def Obligations.CounterBytesAreBigEndian : Prop :=
  ∀ t : Nat, (counterBytes t).length = 8 ∧
    (t / 30 < 2 ^ 64 → (counterBytes t).foldl (fun n b => 256 * n + b.toNat) 0 = t / 30)

/-- R2, R9, R13: a whole code computation through the block, started by a reset in any state, gives what AASPEC's `generate`
gives. The hash is uninterpreted (log 8): the statement holds for every hash. -/
def Obligations.PipelineComputesGenerate : Prop :=
  ∀ (s : State) (secret : List Byte) (t : Nat), s.rx = [] → generateOnBlock secret t s = generate secret t

/-- R13: equal counters give equal results, on whatever states the two computations start. -/
def Obligations.SameWindowSameCode : Prop :=
  ∀ (s u : State) (secret : List Byte) (t1 t2 : Nat), s.rx = [] → u.rx = [] → t1 / 30 = t2 / 30 →
    generateOnBlock secret t1 s = generateOnBlock secret t2 u
end

