-- ==== Sys2Proof/Laws/State.lean ====
section
/-! SUPPORT. One lemma per field per update of State, so that no later proof unfolds a record update. -/

namespace Sys2Proof.Machine

open Sys2Proof

@[simp] theorem State.respond_acc (r : Response) (s : State) : (s.respond r).acc = s.acc := rfl
@[simp] theorem State.respond_nb (r : Response) (s : State) : (s.respond r).nb = s.nb := rfl
@[simp] theorem State.respond_flt (r : Response) (s : State) : (s.respond r).flt = s.flt := rfl
@[simp] theorem State.respond_live (r : Response) (s : State) : (s.respond r).live = s.live := rfl
@[simp] theorem State.respond_rx (r : Response) (s : State) : (s.respond r).rx = s.rx := rfl
@[simp] theorem State.respond_tx (r : Response) (s : State) : (s.respond r).tx = s.tx ++ [r] := rfl

@[simp] theorem State.setDecoder_acc (a : BitVec 7) (n : BitVec 3) (s : State) : (s.setDecoder a n).acc = a := rfl
@[simp] theorem State.setDecoder_nb (a : BitVec 7) (n : BitVec 3) (s : State) : (s.setDecoder a n).nb = n := rfl
@[simp] theorem State.setDecoder_flt (a : BitVec 7) (n : BitVec 3) (s : State) : (s.setDecoder a n).flt = s.flt := rfl
@[simp] theorem State.setDecoder_live (a : BitVec 7) (n : BitVec 3) (s : State) : (s.setDecoder a n).live = s.live := rfl
@[simp] theorem State.setDecoder_rx (a : BitVec 7) (n : BitVec 3) (s : State) : (s.setDecoder a n).rx = s.rx := rfl
@[simp] theorem State.setDecoder_tx (a : BitVec 7) (n : BitVec 3) (s : State) : (s.setDecoder a n).tx = s.tx := rfl

@[simp] theorem State.setFlt_acc (s : State) : (s.setFlt).acc = s.acc := rfl
@[simp] theorem State.setFlt_nb (s : State) : (s.setFlt).nb = s.nb := rfl
@[simp] theorem State.setFlt_flt (s : State) : (s.setFlt).flt = true := rfl
@[simp] theorem State.setFlt_live (s : State) : (s.setFlt).live = s.live := rfl
@[simp] theorem State.setFlt_rx (s : State) : (s.setFlt).rx = s.rx := rfl
@[simp] theorem State.setFlt_tx (s : State) : (s.setFlt).tx = s.tx := rfl

@[simp] theorem State.clearFlt_acc (s : State) : (s.clearFlt).acc = s.acc := rfl
@[simp] theorem State.clearFlt_nb (s : State) : (s.clearFlt).nb = s.nb := rfl
@[simp] theorem State.clearFlt_flt (s : State) : (s.clearFlt).flt = false := rfl
@[simp] theorem State.clearFlt_live (s : State) : (s.clearFlt).live = s.live := rfl
@[simp] theorem State.clearFlt_rx (s : State) : (s.clearFlt).rx = s.rx := rfl
@[simp] theorem State.clearFlt_tx (s : State) : (s.clearFlt).tx = s.tx := rfl

@[simp] theorem State.takeReset_acc (s : State) : (s.takeReset).acc = 0 := rfl
@[simp] theorem State.takeReset_nb (s : State) : (s.takeReset).nb = 0 := rfl
@[simp] theorem State.takeReset_flt (s : State) : (s.takeReset).flt = false := rfl
@[simp] theorem State.takeReset_live (s : State) : (s.takeReset).live = true := rfl
@[simp] theorem State.takeReset_rx (s : State) : (s.takeReset).rx = s.rx := rfl
@[simp] theorem State.takeReset_tx (s : State) : (s.takeReset).tx = s.tx := rfl

@[simp] theorem State.send_acc (ins : List Input) (s : State) : (s.send ins).acc = s.acc := rfl
@[simp] theorem State.send_nb (ins : List Input) (s : State) : (s.send ins).nb = s.nb := rfl
@[simp] theorem State.send_flt (ins : List Input) (s : State) : (s.send ins).flt = s.flt := rfl
@[simp] theorem State.send_live (ins : List Input) (s : State) : (s.send ins).live = s.live := rfl
@[simp] theorem State.send_rx (ins : List Input) (s : State) : (s.send ins).rx = s.rx ++ ins := rfl
@[simp] theorem State.send_tx (ins : List Input) (s : State) : (s.send ins).tx = s.tx := rfl

@[simp] theorem State.consume_acc (rest : List Byte) (s : State) : (s.consume rest).acc = s.acc := rfl
@[simp] theorem State.consume_nb (rest : List Byte) (s : State) : (s.consume rest).nb = s.nb := rfl
@[simp] theorem State.consume_flt (rest : List Byte) (s : State) : (s.consume rest).flt = s.flt := rfl
@[simp] theorem State.consume_live (rest : List Byte) (s : State) : (s.consume rest).live = s.live := rfl
@[simp] theorem State.consume_rx (rest : List Byte) (s : State) : (s.consume rest).rx = rest.map Input.byte ++ fromReset s.rx := rfl
@[simp] theorem State.consume_tx (rest : List Byte) (s : State) : (s.consume rest).tx = s.tx := rfl

@[simp] theorem State.putInput_acc (bs : List Byte) (s : State) : (s.putInput bs).acc = s.acc := rfl
@[simp] theorem State.putInput_nb (bs : List Byte) (s : State) : (s.putInput bs).nb = s.nb := rfl
@[simp] theorem State.putInput_flt (bs : List Byte) (s : State) : (s.putInput bs).flt = s.flt := rfl
@[simp] theorem State.putInput_live (bs : List Byte) (s : State) : (s.putInput bs).live = true := rfl
@[simp] theorem State.putInput_rx (bs : List Byte) (s : State) : (s.putInput bs).rx = bs.map Input.byte ++ s.rx := rfl
@[simp] theorem State.putInput_tx (bs : List Byte) (s : State) : (s.putInput bs).tx = s.tx := rfl

@[simp] theorem State.raiseIllegalCommand_acc (op : Byte) (s : State) : (s.raiseIllegalCommand op).acc = s.acc := rfl
@[simp] theorem State.raiseIllegalCommand_nb (op : Byte) (s : State) : (s.raiseIllegalCommand op).nb = s.nb := rfl
@[simp] theorem State.raiseIllegalCommand_flt (op : Byte) (s : State) : (s.raiseIllegalCommand op).flt = true := rfl
@[simp] theorem State.raiseIllegalCommand_live (op : Byte) (s : State) : (s.raiseIllegalCommand op).live = s.live := rfl
@[simp] theorem State.raiseIllegalCommand_rx (op : Byte) (s : State) : (s.raiseIllegalCommand op).rx = s.rx := rfl
@[simp] theorem State.raiseIllegalCommand_tx (op : Byte) (s : State) : (s.raiseIllegalCommand op).tx = s.tx ++ [.fault op] := rfl

@[simp] theorem State.isHalted_eq (s : State) : s.isHalted = s.flt := rfl

end Sys2Proof.Machine
end

