-- ==== Sys2Proof/Laws/Decode.lean ====
section
/-! SUPPORT. One lemma per function of Decode.lean: what it answers on each form of its argument, and what an answer says
of the argument. -/

namespace Sys2Proof

theorem takeDigest_append (d : Digest) (rest : List Byte) : takeDigest (d.toList ++ rest) = some (d, rest) := by
  unfold takeDigest
  have hl : d.toList.length = 20 := by simp
  have ht : (d.toList ++ rest).take 20 = d.toList := List.take_left' hl
  have hd : (d.toList ++ rest).drop 20 = rest := List.drop_left' hl
  rw [dif_pos (by simp)]
  simp only [ht, hd]
  rfl

theorem takeDigest_short (bs : List Byte) (h : bs.length < 20) : takeDigest bs = none := by
  simp [takeDigest, Nat.not_le.mpr h]

theorem takeDigest_some (bs rest : List Byte) (d : Digest) (h : takeDigest bs = some (d, rest)) :
    bs = d.toList ++ rest := by
  unfold takeDigest at h
  split at h
  · simp only [Option.some.injEq, Prod.mk.injEq] at h
    obtain ⟨rfl, rfl⟩ := h
    simp [Vector.toList]
  · exact absurd h (by simp)

theorem takeDigest_none (bs : List Byte) (h : takeDigest bs = none) : bs.length < 20 := by
  unfold takeDigest at h
  split at h
  · exact absurd h (by simp)
  · omega

@[simp] theorem decode_nil : decode [] = .incomplete := rfl

@[simp] theorem decode_opPush (rest : List Byte) : decode (opPush :: rest) = decodePush rest := rfl

@[simp] theorem decode_opEnd (rest : List Byte) : decode (opEnd :: rest) = .command .b32End rest := rfl

@[simp] theorem decode_opTrunc (rest : List Byte) : decode (opTrunc :: rest) = decodeTrunc rest := rfl

theorem formatOf_eq_none (op : Byte) : formatOf op = none ↔ op ≠ opPush ∧ op ≠ opEnd ∧ op ≠ opTrunc := by
  unfold formatOf
  split_ifs <;> simp_all

theorem decode_unassigned (op : Byte) (rest : List Byte) (h : formatOf op = none) :
    decode (op :: rest) = .illegal op rest := by
  obtain ⟨h1, h2, h3⟩ := (formatOf_eq_none op).mp h
  simp [decode, h1, h2, h3]

/-- An illegal byte is an unassigned opcode at the head. -/
theorem decode_illegal (bs rest : List Byte) (op : Byte) (h : decode bs = .illegal op rest) :
    bs = op :: rest ∧ formatOf op = none := by
  cases bs with
  | nil => simp at h
  | cons b bs =>
    rw [formatOf_eq_none]
    simp only [decode] at h
    split_ifs at h with h1 h2 h3
    · cases bs <;> simp [decodePush] at h
    · simp only [decodeTrunc] at h
      split at h <;> simp at h
    · simp only [Frame.illegal.injEq] at h
      obtain ⟨rfl, rfl⟩ := h
      exact ⟨rfl, h1, h2, h3⟩

@[simp] theorem encode_b32Push (c : Byte) : encode (.b32Push c) = [opPush, c] := rfl

@[simp] theorem encode_b32End : encode .b32End = [opEnd] := rfl

@[simp] theorem encode_ttmTrunc (d : Digest) : encode (.ttmTrunc d) = opTrunc :: d.toList := rfl

theorem encode_ne_nil (i : Instr) : encode i ≠ [] := by cases i <;> simp

end Sys2Proof
end

