-- ==== Sys2Proof/Laws/Ops.lean ====
section
/-! SUPPORT. What each shared operation and each meaning can do, said once. -/

namespace Sys2Proof.Machine

open Sys2Proof

theorem whenRunning_running (f : State → State) (s : State) (h : s.flt = false) : whenRunning f s = f s := by
  simp [whenRunning, h]

theorem whenRunning_halted (f : State → State) (s : State) (h : s.flt = true) : whenRunning f s = s.respond .halted := by
  simp [whenRunning, h]

/-- What a command does while the block runs (R51, R52, R67). -/
def effectOf : Instr → State → State
  | .b32Push c => pushChar c
  | .b32End => endString
  | .ttmTrunc d => State.respond (codeResponse d)

/-- Every meaning is the halted check and then its effect (R78, R81). -/
theorem exec_eq (i : Instr) (s : State) : exec i s = .next (whenRunning (effectOf i) s) := by
  cases i <;> rfl

/-- A command's next state, halted or not. -/
theorem exec_cases {i : Instr} {s t : State} (h : exec i s = .next t) :
    (s.flt = true ∧ t = s.respond .halted) ∨ (s.flt = false ∧ t = effectOf i s) := by
  rw [exec_eq, Host.Outcome.next.injEq] at h
  cases hf : s.flt with
  | true => exact .inl ⟨rfl, by rw [← h, whenRunning_halted _ _ hf]⟩
  | false => exact .inr ⟨rfl, by rw [← h, whenRunning_running _ _ hf]⟩

theorem exec_running (i : Instr) (s : State) (h : s.flt = false) : exec i s = .next (effectOf i s) := by
  rw [exec_eq, whenRunning_running _ _ h]

theorem exec_halted (i : Instr) (s : State) (h : s.flt = true) : exec i s = .next (s.respond .halted) := by
  rw [exec_eq, whenRunning_halted _ _ h]

/-- The dropped characters are those outside the three accepted ranges (R46, R47). -/
theorem symbol_eq_none (c : Byte) : symbol c = none ↔
    ¬(0x41 ≤ c.toNat ∧ c.toNat ≤ 0x5A) ∧ ¬(0x61 ≤ c.toNat ∧ c.toNat ≤ 0x7A) ∧ ¬(0x32 ≤ c.toNat ∧ c.toNat ≤ 0x37) := by
  revert c; decide

/-- The symbol of a valid character, by range (R45, R46). -/
theorem symbol_ranges (c : Byte) :
    (0x41 ≤ c.toNat ∧ c.toNat ≤ 0x5A → symbol c = some (BitVec.ofNat 5 (c.toNat - 0x41))) ∧
    (0x61 ≤ c.toNat ∧ c.toNat ≤ 0x7A → symbol c = some (BitVec.ofNat 5 (c.toNat - 0x61))) ∧
    (0x32 ≤ c.toNat ∧ c.toNat ≤ 0x37 → symbol c = some (BitVec.ofNat 5 (c.toNat - 0x32 + 26))) := by
  revert c; decide

/-- A symbol does not change by uppercasing twice (R45). -/
theorem symbol_upcase (c : Byte) : symbol (upcase c) = symbol c := by
  revert c; decide

/-- The three things a character can do to a running block (R51). -/
theorem pushChar_cases (c : Byte) (s : State) :
    (symbol c = none ∧ pushChar c s = s.respond .none) ∨
    (∃ v, symbol c = some v ∧ 8 ≤ s.nb.toNat + 5 ∧ pushChar c s = emitByte (appendSymbol s.acc v) (s.nb.toNat + 5) s) ∨
    (∃ v, symbol c = some v ∧ s.nb.toNat + 5 < 8 ∧ pushChar c s = keepBits (appendSymbol s.acc v) (s.nb.toNat + 5) s) := by
  unfold pushChar
  cases h : symbol c with
  | none => exact .inl ⟨rfl, rfl⟩
  | some v =>
    by_cases hn : 8 ≤ s.nb.toNat + 5
    · exact .inr (.inl ⟨v, rfl, hn, by simp [acceptSymbol, hn]⟩)
    · exact .inr (.inr ⟨v, rfl, by omega, by simp [acceptSymbol, hn]⟩)

/-- A running command leaves `FLT`, `live` and the queue alone and sends one response. -/
theorem effectOf_frame (i : Instr) (s : State) :
    (effectOf i s).flt = s.flt ∧ (effectOf i s).live = s.live ∧ (effectOf i s).rx = s.rx ∧
      ∃ r, (effectOf i s).tx = s.tx ++ [r] := by
  cases i with
  | b32Push c =>
    obtain ⟨_, h⟩ | ⟨v, _, _, h⟩ | ⟨v, _, _, h⟩ := pushChar_cases c s <;>
      simp [effectOf, h, emitByte, keepBits]
  | b32End => simp [effectOf, endString]
  | ttmTrunc d => simp [effectOf]

/-- The illegal input, halted or not (R76, R78). -/
theorem answerIllegal_cases (op : Byte) (s : State) :
    (s.flt = true ∧ answerIllegal op s = s.respond .halted) ∨
      (s.flt = false ∧ answerIllegal op s = s.raiseIllegalCommand op) := by
  cases hf : s.flt with
  | true => exact .inl ⟨rfl, whenRunning_halted _ _ hf⟩
  | false => exact .inr ⟨rfl, whenRunning_running _ _ hf⟩

/-! ## Bits of the decoder's intermediate -/

/-- A slice as a number. -/
theorem extractLsb'_eq_ofNat {w : Nat} (t : BitVec w) (lo len : Nat) :
    t.extractLsb' lo len = BitVec.ofNat len (t.toNat / 2 ^ lo) := by
  apply BitVec.eq_of_toNat_eq
  simp [BitVec.extractLsb', Nat.shiftRight_eq_div_pow]

/-- `t` is `32 * ACC + v` (R51, R59). -/
theorem appendSymbol_toNat (acc : BitVec 7) (v : BitVec 5) : (appendSymbol acc v).toNat = 32 * acc.toNat + v.toNat := by
  have hv := v.isLt
  have ha := acc.isLt
  have h5 : acc.toNat <<< 5 ||| v.toNat = acc.toNat <<< 5 + v.toNat := (Nat.shiftLeft_add_eq_or_of_lt hv _).symm
  simp only [appendSymbol, BitVec.toNat_or, BitVec.toNat_shiftLeft, BitVec.toNat_setWidth]
  rw [Nat.mod_eq_of_lt (show v.toNat < 2 ^ 12 by omega), Nat.mod_eq_of_lt (show acc.toNat < 2 ^ 12 by omega),
    Nat.mod_eq_of_lt (by rw [Nat.shiftLeft_eq]; omega), h5, Nat.shiftLeft_eq]
  omega

/-- The new bits are the five lowest of `t`, the old ones stand above them. -/
theorem appendSymbol_getLsbD (acc : BitVec 7) (v : BitVec 5) (j : Nat) :
    (appendSymbol acc v).getLsbD j = if j < 5 then v.getLsbD j else acc.getLsbD (j - 5) := by
  simp only [appendSymbol, BitVec.getLsbD_or, BitVec.getLsbD_shiftLeft, BitVec.getLsbD_setWidth]
  by_cases h : j < 5
  · simp [h]; omega
  · have hv : v.getLsbD j = false := BitVec.getLsbD_of_ge _ _ (by omega)
    by_cases h12 : j < 12
    · simp [h, h12, hv]; omega
    · have ha : acc.getLsbD (j - 5) = false := BitVec.getLsbD_of_ge _ _ (by omega)
      simp [h, hv, ha]

/-! ## Digests -/

/-- The offset is the low nibble of the last digest byte (R63). -/
theorem digestOffset_toNat (d : Digest) : (digestOffset d).toNat = d[19].toNat % 16 := by
  have h : (digestOffset d).toNat = d[19].toNat &&& 15 := by simp [digestOffset, offsetMask]
  rw [h]
  exact Nat.and_two_pow_sub_one_eq_mod _ 4

/-- `T` as a number: the fields do not overlap (R64). -/
theorem truncated_toNat (d : Digest) : (truncated d).toNat =
    (windowByte d 0).toNat % 128 * 2 ^ 24 + (windowByte d 1).toNat * 2 ^ 16 + (windowByte d 2).toNat * 2 ^ 8
      + (windowByte d 3).toNat := by
  have h0 := (windowByte d 0).isLt
  have h1 := (windowByte d 1).isLt
  have h2 := (windowByte d 2).isLt
  have h3 := (windowByte d 3).isLt
  have hm : (windowByte d 0 &&& msbMask).toNat = (windowByte d 0).toNat % 128 := by
    rw [BitVec.toNat_and]; exact Nat.and_two_pow_sub_one_eq_mod _ 7
  simp only [truncated, BitVec.toNat_or, BitVec.toNat_shiftLeft, BitVec.toNat_setWidth, hm]
  have ha : (windowByte d 0).toNat % 128 < 128 := Nat.mod_lt _ (by norm_num)
  generalize (windowByte d 0).toNat % 128 = a at *
  generalize (windowByte d 1).toNat = b at *
  generalize (windowByte d 2).toNat = c at *
  generalize (windowByte d 3).toNat = e at *
  have e1 : a <<< 24 ||| b <<< 16 = (a * 256 + b) <<< 16 := by
    rw [← Nat.shiftLeft_add_eq_or_of_lt (by rw [Nat.shiftLeft_eq]; omega)]; simp only [Nat.shiftLeft_eq]; omega
  have e2 : (a * 256 + b) <<< 16 ||| c <<< 8 = ((a * 256 + b) * 256 + c) <<< 8 := by
    rw [← Nat.shiftLeft_add_eq_or_of_lt (by rw [Nat.shiftLeft_eq]; omega)]; simp only [Nat.shiftLeft_eq]; omega
  have e3 : ((a * 256 + b) * 256 + c) <<< 8 ||| e = a * 2 ^ 24 + b * 2 ^ 16 + c * 2 ^ 8 + e := by
    rw [← Nat.shiftLeft_add_eq_or_of_lt (by omega)]; simp only [Nat.shiftLeft_eq]; omega
  have m : ∀ x, x < 256 → x % 2 ^ 32 = x := fun x h => Nat.mod_eq_of_lt (by omega)
  rw [m a (by omega), m b (by omega), m c (by omega), m e (by omega),
    Nat.mod_eq_of_lt (show a <<< 24 < 2 ^ 32 by rw [Nat.shiftLeft_eq]; omega),
    Nat.mod_eq_of_lt (show b <<< 16 < 2 ^ 32 by rw [Nat.shiftLeft_eq]; omega),
    Nat.mod_eq_of_lt (show c <<< 8 < 2 ^ 32 by rw [Nat.shiftLeft_eq]; omega), e1, e2, e3]

/-- A rendered character is the ASCII code of its digit (R66). -/
theorem render_getElem (c k : Nat) (h : k < 6) : ((render c)[k]).toNat = 0x30 + digit c k := by
  have hd : digit c k < 10 := Nat.mod_lt _ (by norm_num)
  simp only [render, Vector.getElem_ofFn, BitVec.toNat_ofNat]
  omega

/-- A code is the sum of its six digits, each at its place (R66). -/
theorem digit_sum (c : Nat) (h : c < 1000000) :
    c = digit c 0 * 100000 + digit c 1 * 10000 + digit c 2 * 1000 + digit c 3 * 100 + digit c 4 * 10 + digit c 5 := by
  simp only [digit, Nat.reduceSub, Nat.reducePow, Nat.div_one]
  omega

end Sys2Proof.Machine
end

