-- ==== Sys2Proof/Laws/Fetch.lean ====
section
/-! SUPPORT. The host's queue as bytes and reset events, and what one step can do, said once. -/

namespace Sys2Proof.Machine

open Sys2Proof

@[simp] theorem bytesBeforeReset_map_append (bs : List Byte) (es : List Input) :
    bytesBeforeReset (bs.map Input.byte ++ es) = bs ++ bytesBeforeReset es := by
  induction bs with
  | nil => rfl
  | cons b bs ih => simp [bytesBeforeReset, ih]

@[simp] theorem fromReset_map_append (bs : List Byte) (es : List Input) :
    fromReset (bs.map Input.byte ++ es) = fromReset es := by
  induction bs with
  | nil => rfl
  | cons b bs ih => simp [fromReset, ih]

/-- The queue is the bytes before the next reset event, then the rest. -/
theorem rx_split (es : List Input) : (bytesBeforeReset es).map Input.byte ++ fromReset es = es := by
  induction es with
  | nil => rfl
  | cons e es ih => cases e <;> simp [bytesBeforeReset, fromReset, ih]

/-- The rest begins with a reset event, if there is one. -/
theorem fromReset_cases (es : List Input) : fromReset es = [] ∨ ∃ fs, fromReset es = .reset :: fs := by
  induction es with
  | nil => exact .inl rfl
  | cons e es ih =>
    cases e with
    | byte b => exact ih
    | reset => exact .inr ⟨es, rfl⟩

/-- What is left of the queue once the bytes in front are consumed. -/
theorem consume_eq {s : State} {bs rest : List Byte} (h : bytesBeforeReset s.rx = bs ++ rest) :
    ∃ es, s.rx = bs.map Input.byte ++ es ∧ s.consume rest = { s with rx := es } := by
  refine ⟨rest.map Input.byte ++ fromReset s.rx, ?_, rfl⟩
  conv_lhs => rw [← rx_split s.rx, h]
  simp

/-- A reset event's state (R86). -/
theorem takeReset_eq (s : State) :
    s.takeReset = { acc := 0, nb := 0, flt := false, live := true, rx := s.rx, tx := s.tx } := rfl

/-- With no reset event behind them, the bytes are the whole queue. -/
theorem rx_eq_bytes {es : List Input} (h : fromReset es = []) : es = (bytesBeforeReset es).map Input.byte := by
  conv_lhs => rw [← rx_split es, h, List.append_nil]

/-- What one step can do: hold (nothing but a partial command is queued), take a reset event (discarding a partial command), answer an illegal byte, or run the
decoded command. -/
theorem step_cases {s t : State} (h : step s = .next t) :
    (t = s ∧ ∃ p, s.rx = p.map Input.byte ∧ (s.live = true → decode p = .incomplete) ∧ (s.live = false → p = [])) ∨
    (∃ p es, s.rx = p.map Input.byte ++ .reset :: es ∧ (s.live = true → decode p = .incomplete) ∧ (s.live = false → p = []) ∧
      t = State.takeReset { s with rx := es }) ∨
    (s.live = true ∧ ∃ op es, formatOf op = none ∧ s.rx = .byte op :: es ∧ t = answerIllegal op { s with rx := es }) ∨
    (s.live = true ∧ ∃ i rest, decode (bytesBeforeReset s.rx) = .command i rest ∧ exec i (s.consume rest) = .next t) := by
  unfold step fetch at h
  cases hl : s.live with
  | false =>
    simp only [hl, fetchNotLive] at h
    cases hr : s.rx with
    | nil => simp [hr] at h; exact .inl ⟨h.symm, [], rfl, by simp, by simp⟩
    | cons e es =>
      cases e with
      | byte b => simp [hr] at h
      | reset => simp [hr] at h; exact .inr (.inl ⟨[], es, rfl, by simp, by simp, h.symm⟩)
  | true =>
    simp only [hl, fetchLive] at h
    cases hd : decode (bytesBeforeReset s.rx) with
    | command i rest => simp [hd] at h; exact .inr (.inr (.inr ⟨rfl, i, rest, rfl, h⟩))
    | illegal op rest =>
      simp [hd] at h
      obtain ⟨hb, hf⟩ := decode_illegal _ _ _ hd
      obtain ⟨es, he, hc⟩ := consume_eq (bs := [op]) (by simpa using hb)
      exact .inr (.inr (.inl ⟨rfl, op, es, hf, he, by rw [← h, hc, hl]⟩))
    | incomplete =>
      simp only [hd, fetchReset, ite_true] at h
      obtain h0 | ⟨fs, h1⟩ := fromReset_cases s.rx
      · simp [h0] at h; exact .inl ⟨h.symm, bytesBeforeReset s.rx, rx_eq_bytes h0, fun _ => hd, by simp⟩
      · simp [h1] at h
        refine .inr (.inl ⟨bytesBeforeReset s.rx, fs, ?_, fun _ => hd, by simp, h.symm⟩)
        rw [← h1, rx_split]

/-! ## Runs -/

@[simp] theorem run_zero (s : State) : run 0 s = .next s := rfl

theorem run_succ {k : Nat} {s t : State} (h : step s = .next t) : run (k + 1) s = run k t := by simp [run, h]

/-- A run of `j + k` steps is a run of `j` and then one of `k`. -/
theorem run_add {j k : Nat} {s t : State} (h : run j s = .next t) : run (j + k) s = run k t := by
  induction j generalizing s with
  | zero => simp at h; simp [h]
  | succ j ih =>
    rw [Nat.succ_add]
    simp only [run] at h ⊢
    cases hs : step s with
    | next u => simp only [hs] at h ⊢; exact ih h
    | fault r => simp [hs] at h
    | refused r => simp [hs] at h

end Sys2Proof.Machine
end

