-- ==== Sys2Proof/Laws/Bits.lean ====
section
/-! SUPPORT. The residual bits and the bit string as lists (R17, R19, R48, R49, R59). -/

namespace Sys2Proof.Machine

open Sys2Proof

/-- The `n` low bits of a vector, the highest of them first. -/
def lowBits {w : Nat} (t : BitVec w) (n : Nat) : List Bool := (List.range n).map fun j => t.getLsbD (n - 1 - j)

@[simp] theorem lowBits_length {w : Nat} (t : BitVec w) (n : Nat) : (lowBits t n).length = n := by simp [lowBits]

theorem lowBits_getElem {w : Nat} (t : BitVec w) (n i : Nat) (h : i < (lowBits t n).length) :
    (lowBits t n)[i] = t.getLsbD (n - 1 - i) := by simp [lowBits]

theorem lowBits_congr {w x : Nat} (t : BitVec w) (u : BitVec x) (n : Nat) (h : ∀ j < n, t.getLsbD j = u.getLsbD j) :
    lowBits t n = lowBits u n := by
  apply List.ext_getElem
  · simp
  · intro i _ h2
    rw [lowBits_length] at h2
    rw [lowBits_getElem, lowBits_getElem]
    exact h _ (by omega)

theorem lowBits_drop {w : Nat} (t : BitVec w) (n k : Nat) : (lowBits t n).drop k = lowBits t (n - k) := by
  apply List.ext_getElem
  · simp
  · intro i _ h2
    rw [lowBits_length] at h2
    rw [List.getElem_drop, lowBits_getElem, lowBits_getElem]
    congr 1
    omega

theorem residual_eq (s : State) : s.residual = lowBits s.acc s.nb.toNat := rfl

theorem residual_length (s : State) : s.residual.length = s.nb.toNat := by simp [residual_eq]

theorem symbolBits_eq (v : BitVec 5) : symbolBits v = lowBits v 5 := by
  simp [symbolBits, lowBits, List.range, List.range.loop]

/-- Appending a symbol to the register is appending its five bits to the list (R51, R59). -/
theorem lowBits_appendSymbol (acc : BitVec 7) (n : Nat) (v : BitVec 5) :
    lowBits acc n ++ symbolBits v = lowBits (appendSymbol acc v) (n + 5) := by
  rw [symbolBits_eq]
  apply List.ext_getElem
  · simp
  · intro i _ h2
    rw [lowBits_length] at h2
    rw [List.getElem_append]
    simp only [lowBits_getElem, lowBits_length, appendSymbol_getLsbD]
    split_ifs with h3 h4 h4
    · omega
    · congr 1; omega
    · congr 1; omega
    · omega

/-- A byte is the number its eight bits spell (R28, R49). -/
theorem byte_eq_bits (b : Byte) : b = BitVec.ofNat 8 ((b.getLsbD 7).toNat * 128 + (b.getLsbD 6).toNat * 64
    + (b.getLsbD 5).toNat * 32 + (b.getLsbD 4).toNat * 16 + (b.getLsbD 3).toNat * 8 + (b.getLsbD 2).toNat * 4
    + (b.getLsbD 1).toNat * 2 + (b.getLsbD 0).toNat) := by
  revert b; decide

/-- The first group of eight bits is the slice `t[n-1 : n-8]` (R51, R59). -/
theorem groupByte_lowBits (t : BitVec 12) (n : Nat) (h : 8 ≤ n) :
    groupByte (lowBits t n) 0 = t.extractLsb' (n - 8) 8 := by
  have key : ∀ j < 8, bitAt (lowBits t n) j = ((t.extractLsb' (n - 8) 8).getLsbD (7 - j)).toNat := by
    intro j hj
    rw [bitAt, List.getD_eq_getElem _ _ (by rw [lowBits_length]; omega), lowBits_getElem, BitVec.getLsbD_extractLsb',
      show n - 1 - j = n - 8 + (7 - j) by omega]
    simp [show 7 - j < 8 by omega]
  rw [byte_eq_bits (t.extractLsb' (n - 8) 8)]
  simp only [groupByte, Nat.mul_zero, Nat.zero_add]
  rw [key 0 (by omega), key 1 (by omega), key 2 (by omega), key 3 (by omega), key 4 (by omega), key 5 (by omega),
    key 6 (by omega), key 7 (by omega)]

/-! ## Slicing (R49) -/

theorem bitString_length (vs : List (BitVec 5)) : (bitString vs).length = 5 * vs.length := by
  induction vs with
  | nil => rfl
  | cons v vs ih =>
    simp only [bitString, List.flatMap_cons, List.length_append] at *
    rw [ih]
    simp [symbolBits]
    omega

theorem sliceBytes_length (l : List Bool) : (sliceBytes l).length = l.length / 8 := by simp [sliceBytes]

theorem sliceBytes_short (l : List Bool) (h : l.length < 8) : sliceBytes l = [] := by
  simp [sliceBytes, Nat.div_eq_of_lt h]

/-- A byte leaves at the front as soon as eight bits exist. -/
theorem sliceBytes_cons (l : List Bool) (h : 8 ≤ l.length) : sliceBytes l = groupByte l 0 :: sliceBytes (l.drop 8) := by
  obtain ⟨m, hm⟩ : ∃ m, l.length / 8 = m + 1 := ⟨l.length / 8 - 1, by omega⟩
  have hm' : (l.drop 8).length / 8 = m := by rw [List.length_drop]; omega
  unfold sliceBytes
  rw [hm, hm', List.range_succ_eq_map, List.map_cons, List.map_map]
  congr 1
  apply List.map_congr_left
  intro k _
  have key : ∀ j, bitAt l (8 * (k + 1) + j) = bitAt (l.drop 8) (8 * k + j) := by
    intro j
    simp only [bitAt, List.getD, List.getElem?_drop]
    rw [show 8 + (8 * k + j) = 8 * (k + 1) + j by omega]
  have key0 := key 0
  simp only [Nat.add_zero] at key0
  simp only [Function.comp, groupByte, Nat.succ_eq_add_one]
  rw [key0, key 1, key 2, key 3, key 4, key 5, key 6, key 7]

/-- Bits behind the first eight do not change the first byte. -/
theorem groupByte_append (l m : List Bool) (h : 8 ≤ l.length) : groupByte (l ++ m) 0 = groupByte l 0 := by
  have key : ∀ j < 8, bitAt (l ++ m) j = bitAt l j := by
    intro j hj
    simp only [bitAt]
    rw [List.getD_append _ _ _ _ (by omega)]
  simp only [groupByte, Nat.mul_zero, Nat.zero_add]
  rw [key 0 (by omega), key 1 (by omega), key 2 (by omega), key 3 (by omega), key 4 (by omega), key 5 (by omega),
    key 6 (by omega), key 7 (by omega)]

/-- Dropping elements a partial map ignores changes nothing. -/
theorem filterMap_dropWhile {α β : Type} (p : α → Bool) (f : α → Option β) (h : ∀ x, p x = true → f x = none)
    (l : List α) : (l.dropWhile p).filterMap f = l.filterMap f := by
  induction l with
  | nil => rfl
  | cons a l ih =>
    by_cases hp : p a = true
    · simp [hp, h a hp, ih]
    · simp [hp]

end Sys2Proof.Machine
end

