-- ==== Sys2Proof/Laws/PerInstr.lean ====
section
/-! SUPPORT. The statements made of every instruction, one lemma per constructor of Instr. -/

namespace Sys2Proof.Laws.FramedAsItsFormat

open Sys2Proof

/-- The instruction is well formed, and its encoding is as long as its opcode byte says (R36, R41). -/
def Statement (i : Instr) : Prop :=
  i.wellFormed = true ∧ ∃ (op : Byte) (f : Format) (ops : List Byte),
    encode i = op :: ops ∧ formatOf op = some f ∧ ops.length = f.operandCount ∧ (encode i).length = inputLength op

theorem b32Push (c : Byte) : Statement (.b32Push c) :=
  ⟨rfl, opPush, .c, [c], rfl, rfl, rfl, rfl⟩

theorem b32End : Statement .b32End :=
  ⟨rfl, opEnd, .z, [], rfl, rfl, rfl, rfl⟩

theorem ttmTrunc (d : Digest) : Statement (.ttmTrunc d) := by
  refine ⟨?_, opTrunc, .d, d.toList, rfl, rfl, by simp [Format.operandCount], ?_⟩
  · simp [Instr.wellFormed, RawCommand.wellFormed, rawOf, formatOf, opTrunc, opPush, opEnd, Format.operandCount]
  · simp [inputLength, formatOf, opTrunc, opPush, opEnd, Format.operandCount]

end Sys2Proof.Laws.FramedAsItsFormat
end

