-- ==== Sys2Proof/Tests/Slice0.lean ====
section
/-! SUPPORT. The model's own tests: ill-formed terms, words written out from the encoding tables, a few vectors of
spec/95_test_vectors.md (named V, T, P as there), and for every statement with hypotheses a witness that meets them. -/

namespace Sys2Proof.Tests

open Sys2Proof Sys2Proof.Machine

/-- A running block after a reset, with chosen decoder registers and queue. -/
def running (acc : BitVec 7) (nb : BitVec 3) (rx : List Input) : State :=
  { State.reset with acc := acc, nb := nb, rx := rx }

/-- A halted block. -/
def haltedBlock (acc : BitVec 7) (nb : BitVec 3) (rx : List Input) : State := { running acc nb rx with flt := true }

/-- A block before its first reset, with some register contents. -/
def notLive (rx : List Input) : State := { running 0x55 6 rx with live := false }

/-- The digest of V70 (R67's example). -/
def digestV70 : Digest :=
  #v[0x1F, 0x86, 0x98, 0x69, 0x0E, 0x02, 0xCA, 0x16, 0x61, 0x85, 0x50, 0xEF, 0x7F, 0x19, 0xDA, 0x8E, 0x94, 0x5B, 0x55, 0x5A]

/-- The digest of V74: offset 15, `T` = 999,999, bit 7 of `d[15]` set and masked. -/
def digestV74 : Digest :=
  #v[0x00, 0x00, 0x00, 0x00, 0x00, 0x00, 0x00, 0x00, 0x00, 0x00, 0x00, 0x00, 0x00, 0x00, 0x00, 0x80, 0x0F, 0x42, 0x3F, 0x0F]

/-- V74's digest with bit 7 of `d[15]` clear and the high nibble of `d[19]` set. -/
def digestV74' : Digest :=
  #v[0x11, 0x00, 0x00, 0x00, 0x00, 0x00, 0x00, 0x00, 0x00, 0x00, 0x00, 0x00, 0x00, 0x00, 0x00, 0x00, 0x0F, 0x42, 0x3F, 0xFF]

/-! ## Ill-formed terms (R40, R42, R92) -/

theorem test_illformed_opcode : (RawCommand.mk 0x03 [0x41]).wellFormed = false := by decide
theorem test_illformed_missing_operand : (RawCommand.mk 0x01 []).wellFormed = false := by decide
theorem test_illformed_surplus_operand : (RawCommand.mk 0x02 [0x00]).wellFormed = false := by decide
theorem test_illformed_short_digest : (RawCommand.mk 0x10 (List.replicate 19 0)).wellFormed = false := by decide
theorem test_illformed_unprintable : (AsmLine.pushChar 0x0A).wellFormed = false := by decide
theorem test_illformed_unprintable_in_string : (AsmLine.str [0x41, 0x80]).wellFormed = false := by decide
theorem test_illformed_legal_illegal : (AsmLine.illegal 0x02).wellFormed = false := by decide
theorem test_wellformed_listing :
    ([.reset, .str [0x4D, 0x59], .strX [0x80], .illegal 0x03, .pushChar 0x4A, .command .b32End] : List AsmLine).all
      AsmLine.wellFormed = true := by decide

/-! ## Decoding written words (R36, R38): one for each format -/

/-- `00000001 01001010`: `B32.PUSH 'J'`. -/
theorem test_decode_push : decode [0b00000001, 0b01001010] = .command (.b32Push 0x4A) [] := by decide
/-- `00000010`: `B32.END`; the next byte is left. -/
theorem test_decode_end : decode [0b00000010, 0b00000001] = .command .b32End [0x01] := by decide
/-- `00010000` and the twenty bytes of V70. -/
theorem test_decode_trunc : decode (0b00010000 :: digestV70.toList) = .command (.ttmTrunc digestV70) [] := by decide
/-- 0x00, 0xFF and the neighbours of the three opcodes are illegal and consume one byte (R40, V90 to V93). -/
theorem test_decode_illegal :
    ([0x00, 0x03, 0x0F, 0x11, 0x20, 0x80, 0xFF] : List Byte).all (fun op => decode [op, 0x01] == .illegal op [0x01]) = true := by decide
/-- V101: 19 digest bytes are an incomplete command. -/
theorem test_decode_incomplete : decode (0x10 :: List.replicate 19 0) = .incomplete := by decide
theorem test_table_words :
    decodeTableWord 8 0x01 = some (.b32Push 0x00) ∧ decodeTableWord 16 0x4A01 = some (.b32Push 0x4A) ∧
      decodeTableWord 8 0x02 = some .b32End ∧ decodeTableWord 8 0x10 = some (.ttmTrunc (Vector.replicate 20 0)) ∧
      decodeTableWord 8 0x03 = none := by decide
/-- The 160-bit bus: `d[0]` is bits 159 to 152 (R39). -/
theorem test_bus : (digestOfBus (0xAB <<< 152 ||| 0xCD))[0] = 0xAB ∧ (digestOfBus (0xAB <<< 152 ||| 0xCD))[19] = 0xCD := by decide
/-- The 15 bytes of V70's response, written and read back (R37). -/
theorem test_response_bytes :
    (codeResponse digestV70).bytes = [0x02, 0x0A, 0x50, 0xEF, 0x7F, 0x19, 0x0D, 0x51, 0xD9, 0x38, 0x37, 0x32, 0x39, 0x32, 0x31] ∧
      parseResponse (codeResponse digestV70).bytes = some (codeResponse digestV70, []) := by decide

/-! ## The commands -/

/-- T1 row 2: from `J`, `B` completes 0x48 and leaves `ACC = 0000001`, `NB = 2`. -/
theorem test_push_emits : exec (.b32Push 0x42) (running 0b0001001 5 []) =
    .next { running 0b0000001 2 [] with tx := [.byte 0x48] } := by rfl
/-- T2 row 5: a space is dropped. -/
theorem test_push_drops : exec (.b32Push 0x20) (running 0b0000110 4 []) =
    .next { running 0b0000110 4 [] with tx := [.none] } := by rfl
/-- V52: `NB = 7` residual bits are thrown away. -/
theorem test_end : exec .b32End (running 0b1111111 7 []) = .next { running 0 0 [] with tx := [.none] } := by rfl
/-- V95: halted, `ACC` is not cleared. -/
theorem test_end_halted : exec .b32End (haltedBlock 0b0001001 5 []) =
    .next { haltedBlock 0b0001001 5 [] with tx := [.halted] } := by rfl
/-- V74: the top bit of the window is masked. -/
theorem test_trunc_masks : exec (.ttmTrunc digestV74) (running 0b0000001 2 []) = .next { running 0b0000001 2 [] with
    tx := [.code 0x0F 0x000F423F 0x0F423F #v[0x39, 0x39, 0x39, 0x39, 0x39, 0x39]] } := by rfl
/-- V70: offset 10, code 872921. -/
theorem test_trunc_v70 : codeResponse digestV70 = .code 0x0A 0x50EF7F19 872921 #v[0x38, 0x37, 0x32, 0x39, 0x32, 0x31] := by decide

/-! ## Steps -/

/-- V91: `03` after `J` faults and keeps `ACC` and `NB`. -/
theorem test_illegal : step (running 0b0001001 5 [.byte 0x03]) =
    .next { haltedBlock 0b0001001 5 [] with tx := [.fault 0x03] } := by rfl
/-- V98: reset leaves the halted condition. -/
theorem test_reset : step (haltedBlock 0b0001001 5 [.reset]) = .next (running 0 0 []) := by rfl
/-- R86: a reset discards the partial command before it. -/
theorem test_reset_discards : step (running 0b0001001 5 [.byte 0x01, .reset, .byte 0x42]) = .next (running 0 0 [.byte 0x42]) := by rfl
/-- R92: the byte after 19 digest bytes is `d[19]`, whatever it was meant to be. -/
theorem test_framing_hazard : step (running 0 0 (.byte 0x10 :: (List.replicate 19 (.byte 0) ++ [.byte 0x02]))) =
    .next { running 0 0 [] with tx := [.code 2 0 0 #v[0x30, 0x30, 0x30, 0x30, 0x30, 0x30]] } := by rfl
/-- R87: no command step before the first reset. -/
theorem test_power_on : step { State.powerOn with rx := [.byte 0x02] } = .fault .beforeFirstReset := by rfl
theorem test_placed_word_runs : step (State.reset.withFetchWord 16 0x4A01) =
    .next { running 0b0001001 5 [] with tx := [.none] } := by rfl
theorem test_core_step : Sys2Proof.core.step = step := rfl

/-! ## Reference function, listings, host -/

/-- V44: `az27AZ`. -/
theorem test_decode_string : decodeString [0x61, 0x7A, 0x32, 0x37, 0x41, 0x5A] = [0x06, 0x75, 0xF0] := by decide
/-- The command bytes of P4. -/
theorem test_listing : assemble [.reset, .pushChar 0x4A, .illegal 0x03, .str []] =
    [.reset, .byte 0x01, .byte 0x4A, .byte 0x03, .byte 0x02] := by decide
theorem test_listing_text :
    lineText (.command (.b32Push 0x4A)) = "B32.PUSH 0x4A" ∧ lineText (.str [0x4A, 0x42]) = "B32.STR \"JB\"" ∧
      lineText (.strX [0x4D, 0xFF]) = "B32.STRX 4D FF" ∧ lineText (.illegal 0x03) = ".ILLEGAL 0x03" := by decide
/-- P3: time 59 is counter 1. -/
theorem test_counter : counterBytes 59 = [0, 0, 0, 0, 0, 0, 0, 1] := by decide

/-! ## Witnesses: a state and operands that meet all hypotheses of a statement together -/

theorem witness_DecodedBytesAreTheEncoding : decode [0x01, 0x5A, 0x02] = .command (.b32Push 0x5A) [0x02] := by decide
theorem witness_OpcodeMap : (List.replicate 19 (0xFF : Byte)).length < 20 ∧ ([] : List Byte).length < 20 ∧
    ([0x00, 0x03, 0x0F, 0x11, 0xFF] : List Byte).all (fun op => op ≠ 0x01 && op ≠ 0x02 && op ≠ 0x10) = true := by decide
theorem witness_StepRunsTheDecodedCommand :
    (running 0 0 [.byte 0x02, .byte 0x01]).live = true ∧
      decode (bytesBeforeReset (running 0 0 [.byte 0x02, .byte 0x01]).rx) = .command .b32End [0x01] ∧
      (running 0 0 [.byte 0x02, .byte 0x01]).rx = (encode .b32End).map Input.byte ++ [.byte 0x01] := by decide
theorem witness_PlacedWordRunsNext : decodeTableWord 8 0x02 = some .b32End := by decide
theorem witness_IllegalCommandEntry : (running 3 2 [.byte 0x11, .reset]).live = true ∧ (running 3 2 [.byte 0x11, .reset]).flt = false ∧
    (running 3 2 [.byte 0x11, .reset]).rx = .byte 0x11 :: [.reset] ∧ (0x11 : Byte) ≠ 0x01 ∧ (0x11 : Byte) ≠ 0x02 ∧ (0x11 : Byte) ≠ 0x10 := by
  decide
theorem witness_IllegalCommandRaisedExactlyWhen : (running 0 0 [.byte 0x00]).live = true ∧ (running 0 0 [.byte 0x00]).flt = false ∧
    step (running 0 0 [.byte 0x00]) = .next { haltedBlock 0 0 [] with tx := [.fault 0x00] } := ⟨rfl, rfl, rfl⟩
theorem witness_FltChanges_set : step (running 1 2 [.byte 0xFF]) = .next { haltedBlock 1 2 [] with tx := [.fault 0xFF] } ∧
    (running 1 2 [.byte 0xFF]).flt = false ∧ { haltedBlock 1 2 [] with tx := [.fault 0xFF] }.flt = true := ⟨rfl, rfl, rfl⟩
theorem witness_FltChanges_clear : step (haltedBlock 1 2 [.byte 0x01, .reset]) = .next (running 0 0 []) ∧
    (haltedBlock 1 2 [.byte 0x01, .reset]).flt = true ∧ (running 0 0 []).flt = false := ⟨rfl, rfl, rfl⟩
theorem witness_HaltedInputs_command : (haltedBlock 1 2 [.byte 0x01, .byte 0x42]).live = true ∧ (haltedBlock 1 2 [.byte 0x01, .byte 0x42]).flt = true ∧
    (haltedBlock 1 2 [.byte 0x01, .byte 0x42]).rx = (encode (.b32Push 0x42)).map Input.byte ++ [] := by decide
theorem witness_HaltedInputs_illegal : (haltedBlock 1 2 [.byte 0x00]).live = true ∧ (haltedBlock 1 2 [.byte 0x00]).flt = true ∧
    (0x00 : Byte) ≠ 0x01 ∧ (0x00 : Byte) ≠ 0x02 ∧ (0x00 : Byte) ≠ 0x10 ∧ (haltedBlock 1 2 [.byte 0x00]).rx = .byte 0x00 :: [] := by decide
theorem witness_HaltedInputs_leave : (haltedBlock 1 2 [.reset]).flt = true ∧ step (haltedBlock 1 2 [.reset]) = .next (running 0 0 []) ∧
    (running 0 0 []).flt = false := ⟨rfl, rfl, rfl⟩
theorem witness_HaltedUntilReset : (haltedBlock 1 2 [.byte 0x02, .byte 0x00]).flt = true ∧
    Input.reset ∉ (haltedBlock 1 2 [.byte 0x02, .byte 0x00]).rx ∧
    run 2 (haltedBlock 1 2 [.byte 0x02, .byte 0x00]) = .next { haltedBlock 1 2 [] with tx := [.halted, .halted] } :=
  ⟨rfl, by decide, rfl⟩
theorem witness_ResetEvent_alone : (haltedBlock 1 2 [.reset, .byte 0x02]).rx = .reset :: [.byte 0x02] := rfl
theorem witness_ResetEvent_partial : (running 1 2 (.byte 0x10 :: (List.replicate 19 (.byte 7) ++ [.reset]))).live = true ∧
    decode (0x10 :: List.replicate 19 7) = .incomplete ∧
    (running 1 2 (.byte 0x10 :: (List.replicate 19 (.byte 7) ++ [.reset]))).rx =
      (0x10 :: List.replicate 19 7 : List Byte).map Input.byte ++ .reset :: [] := by decide
theorem witness_ResetEvent_leave : step (haltedBlock 5 3 [.reset]) = .next (running 0 0 []) ∧ (haltedBlock 5 3 [.reset]).flt = true ∧
    (running 0 0 []).flt = false := ⟨rfl, rfl, rfl⟩
theorem witness_PartialCommandHolds_one : (running 1 2 [.byte 0x01]).live = true ∧ encode (.b32Push 0x41) = [0x01] ++ [0x41] ∧
    ([0x41] : List Byte) ≠ [] ∧ (running 1 2 [.byte 0x01]).rx = [(0x01 : Byte)].map Input.byte := by decide
theorem witness_PartialCommandHolds_none : (running 1 2 []).live = true ∧ encode .b32End = [] ++ [0x02] ∧ ([0x02] : List Byte) ≠ [] ∧
    (running 1 2 []).rx = ([] : List Byte).map Input.byte := by decide
theorem witness_ResetValues : (notLive [.byte 0x02]).live = false ∧ (notLive [.byte 0x02]).rx = .byte 0x02 :: [] := by decide
theorem witness_NoCommandStep_byte : (notLive [.byte 0x02, .reset]).live = false ∧
    (notLive [.byte 0x02, .reset]).rx = .byte 0x02 :: [.reset] := by decide
theorem witness_NoCommandStep_reset : (notLive [.reset]).live = false ∧ step (notLive [.reset]) = .next (running 0 0 []) := ⟨rfl, rfl⟩
theorem witness_OneResponse_command : step (running 3 2 [.byte 0x02, .byte 0x02]) =
    .next { running 0 0 [.byte 0x02] with tx := [.none] } := rfl
theorem witness_OneResponse_illegal : step (running 3 2 [.byte 0x00, .byte 0x02]) =
    .next { haltedBlock 3 2 [.byte 0x02] with tx := [.fault 0x00] } := rfl
theorem witness_OneResponse_reset : step (running 3 2 [.byte 0x01, .reset, .byte 0x02]) = .next (running 0 0 [.byte 0x02]) := rfl
theorem witness_OneResponse_hold : step (running 3 2 [.byte 0x01]) = .next (running 3 2 [.byte 0x01]) ∧
    step (notLive []) = .next (notLive []) := ⟨rfl, rfl⟩
theorem witness_CleanRunsKeepRunning : (running 3 2 [.byte 0x02]).flt = false ∧
    run 1 (running 3 2 [.byte 0x02]) = .next { running 0 0 [] with tx := [.none] } ∧
    cleanResponses (newResponses (running 3 2 [.byte 0x02]) { running 0 0 [] with tx := [.none] }) = true := ⟨rfl, rfl, rfl⟩
theorem witness_Push_halted : (haltedBlock 1 2 []).flt = true := rfl
theorem witness_Push_dropped : (running 1 2 []).flt = false ∧
    ([0x40, 0x5B, 0x60, 0x7B, 0x31, 0x38, 0xC1] : List Byte).all (fun c => decide (¬(0x41 ≤ c.toNat ∧ c.toNat ≤ 0x5A) ∧
      ¬(0x61 ≤ c.toNat ∧ c.toNat ≤ 0x7A) ∧ ¬(0x32 ≤ c.toNat ∧ c.toNat ≤ 0x37))) = true := by decide
theorem witness_Push_byte : (running 0b0000101 3 []).flt = false ∧ 8 ≤ (running 0b0000101 3 []).nb.toNat + 5 ∧
    (0x41 ≤ (0x5A : Byte).toNat ∧ (0x5A : Byte).toNat ≤ 0x5A ∧ 25 = (0x5A : Byte).toNat - 0x41) := by decide
theorem witness_Push_keep : (running 0b0000001 2 []).flt = false ∧ (running 0b0000001 2 []).nb.toNat + 5 < 8 ∧
    (0x61 ≤ (0x7A : Byte).toNat ∧ (0x7A : Byte).toNat ≤ 0x7A ∧ 25 = (0x7A : Byte).toNat - 0x61) ∧
    (0x32 ≤ (0x37 : Byte).toNat ∧ (0x37 : Byte).toNat ≤ 0x37 ∧ 31 = (0x37 : Byte).toNat - 0x32 + 26) := by decide
/-- One witness for each row of R54: `ACC` full of ones, `NB` from 0 to 7. -/
theorem witness_PushTableByNb : index (upcase 0x7A) = some 25 ∧
    ([(0, 0), (1, 1), (3, 2), (7, 3), (15, 4), (31, 5), (63, 6), (127, 7)] : List (BitVec 7 × BitVec 3)).all (fun p =>
      decide ((running p.1 p.2 []).Inv ∧ (running p.1 p.2 []).flt = false)) = true := by decide
theorem witness_PushOnTheListOfBits : (running 3 2 []).flt = false ∧ index (upcase 0x32) = some 26 ∧
    ((running 3 2 []).residual ++ symbolBits 26).length < 8 ∧ 8 ≤ ((running 3 3 []).residual ++ symbolBits 26).length := by decide
theorem witness_EndClearsTheDecoder : (running 127 7 []).flt = false ∧ (haltedBlock 127 7 []).flt = true := by decide
/-- Offset 15, the highest window; `w0` has its top bit set. -/
theorem witness_TruncComputesTheCode : (digestV74[digestV74[19].toNat % 16]'(by omega)).toNat = 0x80 ∧
    (digestV74[digestV74[19].toNat % 16 + 1]'(by omega)).toNat = 0x0F ∧
    (digestV74[digestV74[19].toNat % 16 + 2]'(by omega)).toNat = 0x42 ∧
    (digestV74[digestV74[19].toNat % 16 + 3]'(by omega)).toNat = 0x3F ∧
    999999 = 0x80 % 128 * 2 ^ 24 + 0x0F * 2 ^ 16 + 0x42 * 2 ^ 8 + 0x3F ∧ 999999 = 999999 % 1000000 ∧
    (running 1 2 []).flt = false ∧ (haltedBlock 1 2 []).flt = true := by decide
/-- For `TruncIsAlwaysWellFormed`, `TruncIsStateless` and `NoExceptionDependsOnData`, whose one hypothesis is `FLT = 0`. -/
theorem witness_running_block : (running 1 2 []).flt = false := rfl
theorem witness_EveryTruncatedValueIsReached : 2147483647 < 2 ^ 31 := by decide
theorem witness_RenderIsInjective : (999999 : Nat) ≤ 999999 ∧ render 999999 = render 999999 := ⟨by decide, rfl⟩
theorem witness_TruncReadsOnlyOffsetAndWindow : digestV74[19].toNat % 16 = 15 ∧ digestV74'[19].toNat % 16 = 15 ∧
    digestV74[15].toNat % 128 = digestV74'[15].toNat % 128 ∧ digestV74[16] = digestV74'[16] ∧ digestV74[17] = digestV74'[17] ∧
    digestV74[18] = digestV74'[18] ∧ digestV74 ≠ digestV74' := by decide
theorem witness_CommandFrame_running : exec (.b32Push 0x40) (running 1 2 []) = .next { running 1 2 [] with tx := [.none] } ∧
    index (upcase 0x40) = none ∧ (running 1 2 []).flt = false := ⟨rfl, rfl, rfl⟩
theorem witness_CommandFrame_halted : exec (.ttmTrunc digestV70) (haltedBlock 1 2 []) = .next { haltedBlock 1 2 [] with tx := [.halted] } :=
  rfl
theorem witness_WhoWrites_push : step (running 9 5 [.byte 0x01, .byte 0x42]) = .next { running 1 2 [] with tx := [.byte 0x48] } ∧
    ((running 1 2 []).acc ≠ (running 9 5 []).acc ∨ (running 1 2 []).nb ≠ (running 9 5 []).nb) := ⟨rfl, by decide⟩
theorem witness_WhoWrites_end : step (running 9 5 [.byte 0x02]) = .next { running 0 0 [] with tx := [.none] } ∧
    ((running 0 0 []).acc ≠ (running 9 5 []).acc ∨ (running 0 0 []).nb ≠ (running 9 5 []).nb) := ⟨rfl, by decide⟩
/-- 20 of the 21 bytes of a `TTM.TRUNC`, discarded by the reset behind them. -/
theorem witness_WhoWrites_reset : step (running 9 5 (.byte 0x10 :: (List.replicate 19 (.byte 7) ++ [.reset]))) = .next (running 0 0 []) ∧
    ((running 0 0 []).acc ≠ (running 9 5 []).acc ∨ (running 0 0 []).nb ≠ (running 9 5 []).nb) := ⟨rfl, by decide⟩
theorem witness_WhoWrites_first_reset : step (notLive [.reset, .byte 0x02]) = .next (running 0 0 [.byte 0x02]) ∧
    ((running 0 0 []).acc ≠ (notLive []).acc ∨ (running 0 0 []).nb ≠ (notLive []).nb) := ⟨rfl, by decide⟩
/-- `NB = 2`, bits 2 to 6 of `ACC` stale. -/
theorem witness_StaleBitsNeverShow : (∀ j : Fin 7, j.val < (running 1 2 []).nb.toNat →
      (0b1111101 : BitVec 7).getLsbD j.val = (running 1 2 []).acc.getLsbD j.val) ∧
    exec (.b32Push 0x41) (running 1 2 []) = .next { running 0b0100000 7 [] with tx := [.none] } := ⟨by decide, rfl⟩
theorem witness_StepKeepsTheInvariant : (running 9 5 [.byte 0x01, .byte 0x42]).Inv ∧
    step (running 9 5 [.byte 0x01, .byte 0x42]) = .next { running 1 2 [] with tx := [.byte 0x48] } := ⟨by decide, rfl⟩
theorem witness_UppercaseIsAsciiOnly : (0x61 ≤ (0x61 : Byte).toNat ∧ (0x61 : Byte).toNat ≤ 0x7A) ∧
    ¬(0x61 ≤ (0x60 : Byte).toNat ∧ (0x60 : Byte).toNat ≤ 0x7A) ∧ ¬(0x61 ≤ (0xE1 : Byte).toNat ∧ (0xE1 : Byte).toNat ≤ 0x7A) := by decide
theorem witness_DecodeIgnoresCaseAndInvalid : ∀ c ∈ ([0x30, 0x31, 0x38, 0x39] : List Byte), index (upcase c) = none := by decide
theorem witness_DroppedCharactersVanish : (running 1 2 [.byte 0x01, .byte 0x3D, .byte 0x01, .byte 0x20, .byte 0x02]).live = true ∧
    (running 1 2 [.byte 0x01, .byte 0x3D, .byte 0x01, .byte 0x20, .byte 0x02]).flt = false ∧
    (∀ c ∈ ([0x3D, 0x20] : List Byte), index (upcase c) = none) ∧
    (running 1 2 [.byte 0x01, .byte 0x3D, .byte 0x01, .byte 0x20, .byte 0x02]).rx = wire (([0x3D, 0x20] : List Byte).map Instr.b32Push) ++ [.byte 0x02] := by
  decide
/-- P5 in small: a `TTM.TRUNC` between two pushes. -/
theorem witness_StreamingAgreesWithDecode :
    (running 0 0 (wire [.b32Push 0x4A, .ttmTrunc digestV70, .b32Push 0x42])).AtBoundary ∧
    (∀ i ∈ [Instr.b32Push 0x4A, .ttmTrunc digestV70, .b32Push 0x42], i ≠ .b32End) ∧
    (running 0 0 (wire [.b32Push 0x4A, .ttmTrunc digestV70, .b32Push 0x42])).rx = wire [.b32Push 0x4A, .ttmTrunc digestV70, .b32Push 0x42] := by
  decide
theorem witness_StringExpansionDecodes : (running 0 0 (lineInputs (.str [0x37, 0x37]) ++ [.reset])).AtBoundary ∧
    (running 0 0 (lineInputs (.str [0x37, 0x37]) ++ [.reset])).rx = lineInputs (.str [0x37, 0x37]) ++ [.reset] := by decide
/-- P2: `77` and `MY`, with and without the boundary. -/
theorem witness_TwoStringsInSequence :
    (running 0 0 (wire (strExpansion [0x37, 0x37] ++ strExpansion [0x4D, 0x59]))).AtBoundary ∧
    (running 0 0 (wire (strExpansion [0x37, 0x37] ++ strExpansion [0x4D, 0x59]))).rx = wire (strExpansion [0x37, 0x37] ++ strExpansion [0x4D, 0x59]) ∧
    (running 0 0 (wire ([0x37, 0x37].map Instr.b32Push ++ strExpansion [0x4D, 0x59]))).AtBoundary := by decide
theorem witness_InstancesAreIndependent :
    runSchedule [1, 0] (#v[running 9 5 [.byte 0x02], running 1 2 [.byte 0x00]] : Instances 2) =
      .next #v[{ running 0 0 [] with tx := [.none] }, { haltedBlock 1 2 [] with tx := [.fault 0x00] }] := rfl
theorem witness_CounterBytesAreBigEndian : (30 * 2 ^ 64 - 1) / 30 < 2 ^ 64 := by decide
theorem witness_PipelineComputesGenerate : (haltedBlock 9 5 []).rx = [] ∧ (notLive []).rx = [] := by decide
/-- V7: times 30 and 59. -/
theorem witness_SameWindowSameCode : (running 9 5 []).rx = [] ∧ (haltedBlock 1 2 []).rx = [] ∧ 30 / 30 = 59 / 30 := by decide

end Sys2Proof.Tests
end

section
/-! SUPPORT. The decoder reads back what the encoder writes, and a step runs the command at the head of the queue. -/

namespace Sys2Proof.Machine

open Sys2Proof

/-- The round trip, whatever bytes follow (R36, R38). -/
theorem decode_encode_append (i : Instr) (rest : List Byte) : decode (encode i ++ rest) = .command i rest := by
  cases i with
  | b32Push c => simp [decodePush]
  | b32End => simp
  | ttmTrunc d => simp [decodeTrunc, takeDigest_append]

/-- What is read as a command is that command's encoding (R36, R38). -/
theorem eq_encode_append_of_decode {bs rest : List Byte} {i : Instr} (h : decode bs = .command i rest) :
    bs = encode i ++ rest := by
  cases bs with
  | nil => simp at h
  | cons op bs =>
    simp only [decode] at h
    split_ifs at h with hp he ht
    · cases bs with
      | nil => simp [decodePush] at h
      | cons c bs =>
        simp only [decodePush, Frame.command.injEq] at h
        obtain ⟨rfl, rfl⟩ := h
        simp [hp]
    · simp only [Frame.command.injEq] at h
      obtain ⟨rfl, rfl⟩ := h
      simp [he]
    · cases hd : takeDigest bs with
      | none => simp [decodeTrunc, hd] at h
      | some p =>
        simp only [decodeTrunc, hd, Frame.command.injEq] at h
        obtain ⟨rfl, rfl⟩ := h
        simp [ht, takeDigest_some _ _ _ hd]

/-- A command among the bytes before the next reset event is what the step runs (R14, R38). -/
theorem step_of_decode {s : State} {i : Instr} {rest : List Byte} (hl : s.live = true)
    (hd : decode (bytesBeforeReset s.rx) = .command i rest) : step s = exec i (s.consume rest) := by
  simp [step, fetch, fetchLive, hl, hd]

/-- A command's bytes at the head of the queue are consumed and the command is run (R14, R32). -/
theorem step_encode {s : State} {i : Instr} {es : List Input} (hl : s.live = true)
    (hr : s.rx = (encode i).map Input.byte ++ es) : step s = exec i { s with rx := es } := by
  have hd : decode (bytesBeforeReset s.rx) = .command i (bytesBeforeReset es) := by
    rw [hr, bytesBeforeReset_map_append, decode_encode_append]
  rw [step_of_decode hl hd, State.consume, hr, fromReset_map_append, rx_split]

/-- On a running block the command has its effect (R14, R78). -/
theorem step_encode_running {s : State} {i : Instr} {es : List Input} (hl : s.live = true) (hf : s.flt = false)
    (hr : s.rx = (encode i).map Input.byte ++ es) : step s = .next (effectOf i { s with rx := es }) := by
  rw [step_encode hl hr, exec_running i { s with rx := es } hf]

/-- A reset event at the head of the queue is taken in every state, live or not (R86, R87). -/
theorem step_reset_event {s : State} {es : List Input} (hr : s.rx = .reset :: es) :
    step s = .next (State.takeReset { s with rx := es }) := by
  cases hl : s.live with
  | false => simp [step, fetch, fetchNotLive, hl, hr]
  | true => simp [step, fetch, fetchLive, fetchReset, bytesBeforeReset, fromReset, hl, hr]

/-- Settles O10: the bytes decoded are the command's encoding, and what stands behind them is left in the queue. -/
theorem stepRunsTheDecodedCommand : Obligations.StepRunsTheDecodedCommand := by
  refine ⟨fun s i rest hl hd => ?_, fun s i es hl hr => step_encode hl hr⟩
  obtain ⟨es, hr, -⟩ := consume_eq (eq_encode_append_of_decode hd)
  exact ⟨es, hr, step_encode hl hr⟩

end Sys2Proof.Machine
end

section
/-! SUPPORT. The counter in bytes (R7). -/

namespace Sys2Proof.Machine

open Sys2Proof

/-- The low `m` base-256 digits of a number, the most significant first (R28). -/
def bigEndian (m n : Nat) : List Byte := (List.range m).map fun k => BitVec.ofNat 8 (n / 256 ^ (m - 1 - k))

theorem counterBytes_eq_bigEndian (t : Nat) : counterBytes t = bigEndian 8 (counter t) := rfl

theorem bigEndian_succ (m n : Nat) : bigEndian (m + 1) n = BitVec.ofNat 8 (n / 256 ^ m) :: bigEndian m n := by
  simp only [bigEndian, List.range_succ_eq_map, List.map_cons, List.map_map]
  congr 1
  exact List.map_congr_left fun k _ => by simp [Nat.sub_sub, Nat.add_comm]

/-- Reading the digits back, behind what was read before them. -/
theorem foldl_bigEndian (m n a : Nat) :
    (bigEndian m n).foldl (fun n b => 256 * n + b.toNat) a = a * 256 ^ m + n % 256 ^ m := by
  induction m generalizing a with
  | zero => simp [bigEndian, Nat.mod_one]
  | succ m ih =>
    rw [bigEndian_succ, List.foldl_cons, ih, BitVec.toNat_ofNat, Nat.mod_pow_succ (x := n) (b := 256), Nat.pow_succ]
    ring

/-- Settles O49: the eight base-256 digits spell the counter modulo `2 ^ 64`, which is the counter when it fits. -/
theorem counterBytesAreBigEndian : Obligations.CounterBytesAreBigEndian := by
  refine fun t => ⟨by simp [counterBytes], fun h => ?_⟩
  rw [counterBytes_eq_bigEndian, foldl_bigEndian, Nat.zero_mul, Nat.zero_add]
  exact Nat.mod_eq_of_lt h

end Sys2Proof.Machine
end

section
/-! SUPPORT. Slicing a bit string piece by piece, and `decode` without its second step (R44, R49, R50). -/

namespace Sys2Proof.Machine

open Sys2Proof

/-- The bits behind the whole groups of 8: what is left once `sliceBytes` has taken its bytes (R49). -/
def leftover (l : List Bool) : List Bool := l.drop (8 * (l.length / 8))

theorem leftover_short (l : List Bool) (h : l.length < 8) : leftover l = l := by
  simp [leftover, Nat.div_eq_of_lt h]

theorem leftover_drop (l : List Bool) (h : 8 ≤ l.length) : leftover l = leftover (l.drop 8) := by
  simp only [leftover, List.drop_drop, List.length_drop]
  congr 1
  omega

/-- Bits that come later are sliced behind the leftover of the earlier ones. -/
theorem slice_append (l m : List Bool) :
    sliceBytes (l ++ m) = sliceBytes l ++ sliceBytes (leftover l ++ m) ∧ leftover (l ++ m) = leftover (leftover l ++ m) := by
  by_cases h : l.length < 8
  · simp [sliceBytes_short l h, leftover_short l h]
  · have h8 : 8 ≤ l.length := by omega
    have hlm : 8 ≤ (l ++ m).length := by simp; omega
    obtain ⟨ih1, ih2⟩ := slice_append (l.drop 8) m
    rw [sliceBytes_cons _ hlm, sliceBytes_cons _ h8, leftover_drop _ hlm, leftover_drop _ h8, groupByte_append _ _ h8,
      List.drop_append_of_le_length h8, ih1]
    exact ⟨rfl, ih2⟩
termination_by l.length
decreasing_by simp; omega

/-- Step 2 of `decode` takes away only characters that step 3 would drop (R50). -/
theorem stringSymbols_eq_charSymbols (s : List Byte) : stringSymbols s = charSymbols s := by
  have hpad : ∀ c : Byte, (c == padChar) = true → index c = none := by
    intro c hc
    rw [eq_of_beq hc]
    rfl
  rw [stringSymbols, stripPad, List.filterMap_reverse, filterMap_dropWhile _ _ hpad, List.filterMap_reverse,
    List.reverse_reverse, List.filterMap_map]
  rfl

end Sys2Proof.Machine
end

section
/-! SUPPORT. Streaming: what a running block sends and keeps while pushes, with `TTM.TRUNC` anywhere between them, go
through it (R55), and the string expansion from a boundary (R43). -/

namespace Sys2Proof.Machine

open Sys2Proof

/-- The bits a command sequence presents to the decoder: five for each valid character pushed (R48, R55). -/
def presentedBits (is : List Instr) : List Bool := bitString (charSymbols (pushedChars is))

theorem presentedBits_nil : presentedBits [] = [] := rfl

theorem presentedBits_append (is js : List Instr) : presentedBits (is ++ js) = presentedBits is ++ presentedBits js := by
  simp [presentedBits, bitString, charSymbols, pushedChars]

theorem presentedBits_push (c : Byte) : presentedBits [.b32Push c] = bitString (symbol c).toList := by
  cases h : symbol c <;> simp [presentedBits, charSymbols, pushedChars, h]

theorem presentedBits_trunc (d : Digest) : presentedBits [.ttmTrunc d] = [] := rfl

theorem pushedChars_map_push (cs : List Byte) : pushedChars (cs.map Instr.b32Push) = cs := by
  simp [pushedChars, List.filterMap_map]

theorem bytePayloads_append (rs qs : List Response) : bytePayloads (rs ++ qs) = bytePayloads rs ++ bytePayloads qs := by
  simp [bytePayloads]

/-- From `s` to `t` the bits of `is` have gone through the decoder: one response per command, the payloads being the
whole bytes of the old residual bits and the new ones, the residual bits what those bytes leave (R55, R59). -/
structure Streamed (is : List Instr) (s t : State) : Prop where
  flt : t.flt = s.flt
  live : t.live = s.live
  residual : t.residual = leftover (s.residual ++ presentedBits is)
  responses : ∃ rs : List Response, rs.length = is.length ∧ t.tx = s.tx ++ rs ∧
    bytePayloads rs = sliceBytes (s.residual ++ presentedBits is)

theorem residual_length_lt (s : State) : s.residual.length < 8 := by
  rw [residual_length]
  exact s.nb.isLt

theorem Streamed.refl (s : State) : Streamed [] s s where
  flt := rfl
  live := rfl
  residual := by rw [presentedBits_nil, List.append_nil, leftover_short _ (residual_length_lt s)]
  responses := ⟨[], rfl, by simp, by
    rw [presentedBits_nil, List.append_nil, sliceBytes_short _ (residual_length_lt s)]
    rfl⟩

theorem Streamed.trans {is js : List Instr} {s t u : State} (hst : Streamed is s t) (htu : Streamed js t u) :
    Streamed (is ++ js) s u where
  flt := htu.flt.trans hst.flt
  live := htu.live.trans hst.live
  residual := by
    rw [htu.residual, hst.residual, presentedBits_append, ← List.append_assoc, ← (slice_append _ _).2]
  responses := by
    obtain ⟨rs, hrl, hrt, hrp⟩ := hst.responses
    obtain ⟨qs, hql, hqt, hqp⟩ := htu.responses
    refine ⟨rs ++ qs, by simp [hrl, hql], by simp [hrt, hqt], ?_⟩
    rw [bytePayloads_append, hrp, hqp, hst.residual, presentedBits_append, ← List.append_assoc,
      (slice_append (s.residual ++ presentedBits is) _).1]

/-- Emitting a byte leaves the `n - 8` low bits (R51). -/
theorem emitByte_residual (t : BitVec 12) (n : Nat) (s : State) (h : n < 16) :
    (emitByte t n s).residual = lowBits t (n - 8) := by
  have hn : (BitVec.ofNat 3 (n - 8)).toNat = n - 8 := by simp; omega
  rw [residual_eq]
  simp only [emitByte, State.respond_acc, State.respond_nb, State.setDecoder_acc, State.setDecoder_nb, hn]
  refine lowBits_congr _ _ _ fun j hj => ?_
  simp [hj, show j < 7 by omega]

/-- With fewer than eight bits all of them are kept (R51). -/
theorem keepBits_residual (t : BitVec 12) (n : Nat) (s : State) (h : n < 8) :
    (keepBits t n s).residual = lowBits t n := by
  have hn : (BitVec.ofNat 3 n).toNat = n := by simp; omega
  rw [residual_eq]
  simp only [keepBits, State.respond_acc, State.respond_nb, State.setDecoder_acc, State.setDecoder_nb, hn]
  refine lowBits_congr _ _ _ fun j hj => ?_
  simp [show j < 7 by omega]

/-- Eight to fifteen bits hold one byte (R49). -/
theorem slice_lowBits_one (t : BitVec 12) (n : Nat) (h8 : 8 ≤ n) (h16 : n < 16) :
    sliceBytes (lowBits t n) = [t.extractLsb' (n - 8) 8] ∧ leftover (lowBits t n) = lowBits t (n - 8) := by
  have hl : 8 ≤ (lowBits t n).length := by simpa
  have hs : (lowBits t (n - 8)).length < 8 := by rw [lowBits_length]; omega
  rw [sliceBytes_cons _ hl, leftover_drop _ hl, lowBits_drop, sliceBytes_short _ hs, leftover_short _ hs,
    groupByte_lowBits t n h8]
  exact ⟨rfl, rfl⟩

/-- The bits the decoder holds once a valid character has come in (R51, R59). -/
theorem residual_append_push {c : Byte} {v : BitVec 5} (s : State) (hv : symbol c = some v) :
    s.residual ++ presentedBits [.b32Push c] = lowBits (appendSymbol s.acc v) (s.nb.toNat + 5) := by
  rw [presentedBits_push, hv, ← lowBits_appendSymbol, residual_eq]
  simp [bitString]

/-- A command that presents no bits and is answered without a byte (R47, R69). -/
theorem Streamed.of_respond {i : Instr} {r : Response} (s : State) (hi : presentedBits [i] = [])
    (hr : payloadOf r = none) : Streamed [i] s (s.respond r) where
  flt := rfl
  live := rfl
  residual := by
    rw [hi, List.append_nil, leftover_short _ (residual_length_lt s)]
    rfl
  responses := ⟨[r], rfl, rfl, by
    rw [hi, List.append_nil, sliceBytes_short _ (residual_length_lt s)]
    simp [bytePayloads, hr]⟩

/-- A valid character that completes a byte (R51). -/
theorem Streamed.of_emitByte {c : Byte} {v : BitVec 5} (s : State) (hv : symbol c = some v) (h8 : 8 ≤ s.nb.toNat + 5) :
    Streamed [.b32Push c] s (emitByte (appendSymbol s.acc v) (s.nb.toNat + 5) s) := by
  have h16 : s.nb.toNat + 5 < 16 := by have := s.nb.isLt; omega
  obtain ⟨hslice, hleft⟩ := slice_lowBits_one (appendSymbol s.acc v) _ h8 h16
  refine ⟨rfl, rfl, ?_, _, rfl, rfl, ?_⟩
  · rw [residual_append_push s hv, emitByte_residual _ _ _ h16, hleft]
  · rw [residual_append_push s hv, hslice]
    rfl

/-- A valid character that completes none (R51). -/
theorem Streamed.of_keepBits {c : Byte} {v : BitVec 5} (s : State) (hv : symbol c = some v) (h8 : s.nb.toNat + 5 < 8) :
    Streamed [.b32Push c] s (keepBits (appendSymbol s.acc v) (s.nb.toNat + 5) s) := by
  have hl : (lowBits (appendSymbol s.acc v) (s.nb.toNat + 5)).length < 8 := by simpa
  refine ⟨rfl, rfl, ?_, _, rfl, rfl, ?_⟩
  · rw [residual_append_push s hv, keepBits_residual _ _ _ h8, leftover_short _ hl]
  · rw [residual_append_push s hv, sliceBytes_short _ hl]
    rfl

/-- Any command but `B32.END` streams its bits through a running block (R51, R55, R69). -/
theorem Streamed.of_effectOf (i : Instr) (s : State) (hi : i ≠ .b32End) : Streamed [i] s (effectOf i s) := by
  cases i with
  | b32Push c =>
    rw [effectOf]
    obtain ⟨hv, h⟩ | ⟨v, hv, h8, h⟩ | ⟨v, hv, h8, h⟩ := pushChar_cases c s
    · rw [h]
      exact .of_respond s (by simp [presentedBits_push, hv, bitString]) rfl
    · rw [h]
      exact .of_emitByte s hv h8
    · rw [h]
      exact .of_keepBits s hv h8
  | b32End => exact absurd rfl hi
  | ttmTrunc d => exact .of_respond s (presentedBits_trunc d) rfl

theorem wire_cons (i : Instr) (is : List Instr) : wire (i :: is) = (encode i).map Input.byte ++ wire is := rfl

theorem wire_append (is js : List Instr) : wire (is ++ js) = wire is ++ wire js := by simp [wire]

/-- A running block streams a whole command sequence, one step a command, and leaves what is queued behind it (R55). -/
theorem run_streamed (is : List Instr) (s : State) (es : List Input) (hl : s.live = true) (hf : s.flt = false)
    (his : ∀ i ∈ is, i ≠ .b32End) (hr : s.rx = wire is ++ es) :
    ∃ t, run is.length s = .next t ∧ t.rx = es ∧ Streamed is s t := by
  induction is generalizing s with
  | nil => exact ⟨s, rfl, hr, .refl s⟩
  | cons i is ih =>
    rw [wire_cons, List.append_assoc] at hr
    have hi : Streamed [i] { s with rx := wire is ++ es } (effectOf i { s with rx := wire is ++ es }) :=
      .of_effectOf i _ (his i (by simp))
    obtain ⟨-, -, hrx, -⟩ := effectOf_frame i { s with rx := wire is ++ es }
    obtain ⟨t, hrun, hes, hst⟩ := ih _ (hi.live.trans hl) (hi.flt.trans hf) (fun j hj => his j (by simp [hj])) hrx
    have hs : Streamed [i] s (effectOf i { s with rx := wire is ++ es }) := ⟨hi.flt, hi.live, hi.residual, hi.responses⟩
    exact ⟨t, (run_succ (step_encode_running hl hf hr)).trans hrun, hes, hs.trans hst⟩

/-- `B32.STR` from a string boundary returns `decode` of its string and ends at the boundary again (R43, R55). -/
theorem run_str (s : State) (str : List Byte) (es : List Input) (hs : s.AtBoundary)
    (hr : s.rx = lineInputs (.str str) ++ es) :
    ∃ rs, bytePayloads rs = decodeString str ∧ run (str.length + 1) s = .next { s with rx := es, tx := s.tx ++ rs } := by
  obtain ⟨hlive, hflt, hacc, hnb⟩ := hs
  have hres : s.residual = [] := List.eq_nil_of_length_eq_zero (by simp [residual_length, hnb])
  rw [lineInputs, strExpansion, wire_append, List.append_assoc] at hr
  obtain ⟨t, hrun, hrx, hst⟩ := run_streamed _ s _ hlive hflt (by simp) hr
  obtain ⟨rs, -, htx, hp⟩ := hst.responses
  have hend : step t = .next { s with rx := es, tx := s.tx ++ (rs ++ [.none]) } := by
    rw [step_encode_running (i := .b32End) (hst.live.trans hlive) (hst.flt.trans hflt) hrx]
    simp [effectOf, endString, State.setDecoder, State.respond, hst.live, hst.flt, htx, hacc, hnb]
  refine ⟨rs ++ [.none], ?_, ?_⟩
  · rw [bytePayloads_append, hp, hres, presentedBits, pushedChars_map_push, decodeString, stringSymbols_eq_charSymbols]
    simp [bytePayloads, payloadOf]
  · rw [List.length_map] at hrun
    rw [run_add hrun, run_succ hend, run_zero]

end Sys2Proof.Machine
end

section
/-! SUPPORT. The code computation through the block, unit by unit, and against `generate` (R2, R9, R13). -/

namespace Sys2Proof.Machine

open Sys2Proof

theorem takeReset_atBoundary (s : State) : s.takeReset.AtBoundary := ⟨rfl, rfl, rfl, rfl⟩

/-- A decode run gives `decode` of the secret, whatever state the reset found, and leaves an empty queue at a string
boundary (R9, R86). -/
theorem keyFromBlock_eq (secret : List Byte) (s : State) (hr : s.rx = []) :
    ∃ t : State, keyFromBlock secret s = some (decodeString secret, t) ∧ t.AtBoundary ∧ t.rx = [] := by
  have hq : (s.send (assemble [.reset, .str secret])).rx = .reset :: lineInputs (.str secret) := by
    simp [assemble, lineInputs, hr]
  obtain ⟨rs, hp, hrun⟩ := run_str (State.takeReset { s with rx := lineInputs (.str secret) }) secret []
    (takeReset_atBoundary _) (by simp)
  refine ⟨_, ?_, takeReset_atBoundary { s with rx := [], tx := s.tx ++ rs }, rfl⟩
  have hall : run (secret.length + 2) (s.send (assemble [.reset, .str secret])) =
      .next (State.takeReset { s with rx := [], tx := s.tx ++ rs }) :=
    (run_succ (step_reset_event hq)).trans hrun
  rw [keyFromBlock, hall]
  simp [newResponses, hp]

/-- A code run on a running block with nothing queued gives the code of the digest (R67, R95). -/
theorem codeFromBlock_eq (d : Digest) (s : State) (hl : s.live = true) (hf : s.flt = false) (hr : s.rx = []) :
    codeFromBlock d s = .code (render (codeOf (dt d))) := by
  have hstep : step (s.send (wire [.ttmTrunc d])) = .next (s.respond (codeResponse d)) := by
    have hq : (s.send (wire [.ttmTrunc d])).rx = (encode (.ttmTrunc d)).map Input.byte ++ [] := by simp [hr, wire]
    rw [step_encode_running (s := s.send _) hl hf hq]
    simp [effectOf, State.send, State.respond, ← hr]
  rw [codeFromBlock, run_succ hstep]
  simp [newResponses, codeResponse]

/-- Settles O50: the block's key is `decode` of the secret, so both sides hash the same bytes, and the block's code of
the digest is the reference's. -/
theorem pipelineComputesGenerate : Obligations.PipelineComputesGenerate := by
  intro s secret t hr
  obtain ⟨u, hkey, ⟨hl, hf, -, -⟩, hu⟩ := keyFromBlock_eq secret s hr
  simp only [generateOnBlock, generate, hkey]
  cases Config.hmacSha1 (decodeString secret) (counterBytes t) with
  | none => rfl
  | some d => simp only [codeFromBlock_eq d u hl hf hu]

/-- `generate` reads the time through its counter only (R7, R13). -/
theorem generate_congr (secret : List Byte) {t1 t2 : Nat} (h : counter t1 = counter t2) :
    generate secret t1 = generate secret t2 := by
  have htime : timeInRange t1 = timeInRange t2 := by rw [timeInRange, h, timeInRange]
  have hbytes : counterBytes t1 = counterBytes t2 := by rw [counterBytes, h, counterBytes]
  rw [generate, generate, htime, hbytes]

/-- Settles O51: both computations are `generate`, which sees the counter alone. -/
theorem sameWindowSameCode : Obligations.SameWindowSameCode := by
  intro s u secret t1 t2 hs hu ht
  rw [pipelineComputesGenerate s secret t1 hs, pipelineComputesGenerate u secret t2 hu, generate_congr secret ht]

end Sys2Proof.Machine
end

section
/-! SUPPORT. What a step leaves behind, with the block halted or running, and the properties of every step that follow:
the invariant of `ACC` and `NB` (R19), who writes `FLT` (R22), who writes the decoder (R17, R18), and what a command
leaves unchanged (R37, R78). -/

namespace Sys2Proof.Machine

open Sys2Proof

/-! ## One step, halted or running -/

/-- What a step from `s` leaves behind, each case with the inputs it consumed: `step_cases` with the halted check
(R78) already made. -/
inductive StepEffect (s : State) : State → Prop
  /-- nothing but a partial command is queued (R41) -/
  | hold (p : List Byte) (hrx : s.rx = p.map Input.byte) (hpartial : s.live = true → decode p = .incomplete)
      (hfirst : s.live = false → p = []) : StepEffect s s
  /-- a reset event, a partial command in front of it being discarded (R86, R87) -/
  | reset (p : List Byte) (es : List Input) (hrx : s.rx = p.map Input.byte ++ .reset :: es)
      (hpartial : s.live = true → decode p = .incomplete) (hfirst : s.live = false → p = []) :
      StepEffect s (State.takeReset { s with rx := es })
  /-- a command or an unassigned byte, answered `HALTED` (R78) -/
  | halted (bs : List Byte) (es : List Input) (hlive : s.live = true) (hflt : s.flt = true)
      (hrx : s.rx = bs.map Input.byte ++ es) (hbs : (∃ i, bs = encode i) ∨ ∃ op, formatOf op = none ∧ bs = [op]) :
      StepEffect s (State.respond .halted { s with rx := es })
  /-- the exception on an unassigned byte (R76) -/
  | exception (op : Byte) (es : List Input) (hlive : s.live = true) (hflt : s.flt = false) (hop : formatOf op = none)
      (hrx : s.rx = .byte op :: es) : StepEffect s (State.raiseIllegalCommand op { s with rx := es })
  /-- a command, run (R51, R52, R67) -/
  | command (i : Instr) (es : List Input) (hlive : s.live = true) (hflt : s.flt = false)
      (hrx : s.rx = (encode i).map Input.byte ++ es) : StepEffect s (effectOf i { s with rx := es })

/-- Every next state of a step is one of the five. -/
theorem StepEffect.of_step {s t : State} (h : step s = .next t) : StepEffect s t := by
  obtain ⟨rfl, p, hrx, hp, hf⟩ | ⟨p, es, hrx, hp, hf, rfl⟩ | ⟨hl, op, es, hop, hrx, rfl⟩ | ⟨hl, i, rest, hd, hx⟩ :=
    step_cases h
  · exact .hold p hrx hp hf
  · exact .reset p es hrx hp hf
  · obtain ⟨hflt, ht⟩ | ⟨hflt, ht⟩ := answerIllegal_cases op { s with rx := es }
    · rw [ht]
      exact .halted [op] es hl hflt hrx (.inr ⟨op, hop, rfl⟩)
    · rw [ht]
      exact .exception op es hl hflt hop hrx
  · obtain ⟨es, hrx, hc⟩ := consume_eq (eq_encode_append_of_decode hd)
    rw [hc] at hx
    obtain ⟨hflt, rfl⟩ | ⟨hflt, rfl⟩ := exec_cases hx
    · exact .halted (encode i) es hl hflt hrx (.inl ⟨i, rfl⟩)
    · exact .command i es hl hflt hrx

/-! ## The invariant (R19) -/

/-- With `ACC = 0` the invariant holds whatever `NB` is. -/
theorem State.Inv.of_acc_eq_zero {s : State} (h : s.acc = 0) : s.Inv := by
  intro i _
  simp [h]

/-- The invariant reads `ACC` and `NB` only. -/
theorem State.Inv.congr {s t : State} (hs : s.Inv) (hacc : t.acc = s.acc) (hnb : t.nb = s.nb) : t.Inv := by
  intro i hi
  rw [hacc]
  exact hs i (hnb ▸ hi)

/-- Emitting a byte keeps `n - 8` bits and zeroes those above them, whatever `t` is (R51). -/
theorem emitByte_inv (t : BitVec 12) (n : Nat) (s : State) (h : n < 16) : (emitByte t n s).Inv := by
  intro i hi
  have hn : (BitVec.ofNat 3 (n - 8)).toNat = n - 8 := by simp; omega
  simp only [emitByte, State.respond_acc, State.respond_nb, State.setDecoder_acc, State.setDecoder_nb, hn] at hi ⊢
  simp [Nat.not_lt.mpr hi]

/-- Keeping `n` bits of a `t` that has no more leaves zeroes above them (R51). -/
theorem keepBits_inv (t : BitVec 12) (n : Nat) (s : State) (h : n < 8) (ht : ∀ j < 7, n ≤ j → t.getLsbD j = false) :
    (keepBits t n s).Inv := by
  intro i hi
  have hn : (BitVec.ofNat 3 n).toNat = n := by simp; omega
  simp only [keepBits, State.respond_acc, State.respond_nb, State.setDecoder_acc, State.setDecoder_nb, hn] at hi ⊢
  simp [ht i i.isLt hi]

/-- Bit `j` of `t` is bit `j - 5` of `ACC`, so under the invariant `t` has zeroes from bit `NB + 5` up (R51, R59). -/
theorem appendSymbol_zero_above {s : State} (hs : s.Inv) (v : BitVec 5) :
    ∀ j < 7, s.nb.toNat + 5 ≤ j → (appendSymbol s.acc v).getLsbD j = false := by
  intro j hj hn
  rw [appendSymbol_getLsbD, if_neg (by omega)]
  exact hs ⟨j - 5, by omega⟩ (by simp; omega)

/-- A running command keeps the invariant. -/
theorem effectOf_keeps_inv (i : Instr) {s : State} (hs : s.Inv) : (effectOf i s).Inv := by
  cases i with
  | b32Push c =>
    rw [effectOf]
    obtain ⟨-, h⟩ | ⟨v, -, -, h⟩ | ⟨v, -, h8, h⟩ := pushChar_cases c s
    · rw [h]
      exact hs.congr rfl rfl
    · rw [h]
      exact emitByte_inv _ _ s (by have := s.nb.isLt; omega)
    · rw [h]
      exact keepBits_inv _ _ s h8 (appendSymbol_zero_above hs v)
  | b32End => exact .of_acc_eq_zero rfl
  | ttmTrunc d => exact hs.congr rfl rfl

/-- Settles O37: only a running command and a reset event write `ACC` or `NB`; the command keeps the invariant and the
reset event makes it true. -/
theorem stepKeepsTheInvariant : Obligations.StepKeepsTheInvariant := by
  intro s t hs h
  cases StepEffect.of_step h with
  | hold => exact hs
  | reset => exact .of_acc_eq_zero rfl
  | halted => exact hs.congr rfl rfl
  | exception => exact hs.congr rfl rfl
  | command i es => exact effectOf_keeps_inv i (s := { s with rx := es }) (hs.congr rfl rfl)

/-- Settles O38: `ACC = 0` in the reset state. -/
theorem resetMeetsTheInvariant : Obligations.ResetMeetsTheInvariant := State.Inv.of_acc_eq_zero rfl

/-! ## Who writes `FLT`, and the reset values (R22, R25) -/

/-- A byte presented before the first reset stops the model (R87). -/
theorem step_byte_before_reset {s : State} {b : Byte} {es : List Input} (hl : s.live = false)
    (hr : s.rx = .byte b :: es) : step s = .fault .beforeFirstReset := by
  simp [step, fetch, fetchNotLive, hl, hr]

/-- Settles O14: of the five effects only the exception sets `FLT` and only a reset event clears it. -/
theorem fltChangesOnlyByFaultAndReset : Obligations.FltChangesOnlyByFaultAndReset := by
  intro s t h
  cases StepEffect.of_step h with
  | hold => exact ⟨fun h0 h1 => by simp [h0] at h1, fun h1 h0 => by simp [h1] at h0⟩
  | reset p es hrx => exact ⟨fun _ h1 => by simp at h1, fun _ _ => ⟨p, es, hrx, rfl⟩⟩
  | halted bs es _ hflt => exact ⟨fun h0 _ => by simp [h0] at hflt, fun _ h0 => by simp [hflt] at h0⟩
  | exception op es _ hflt hop hrx =>
    exact ⟨fun _ _ => ⟨op, es, hrx, hop, rfl⟩, fun h1 _ => by simp [h1] at hflt⟩
  | command i es _ hflt =>
    obtain ⟨hkeep, -⟩ := effectOf_frame i { s with rx := es }
    exact ⟨fun _ h1 => absurd (hkeep.trans hflt) (by simp [h1]), fun h1 _ => by simp [h1] at hflt⟩

/-- Settles O19: the values are those of `State.reset`, and a byte before the first reset is a fault, not a next
state. -/
theorem resetValues : Obligations.ResetValues := by
  refine ⟨rfl, rfl, rfl, fun s t b es hl hr h => ?_⟩
  rw [step_byte_before_reset hl hr] at h
  cases h

/-! ## What a command answers and leaves unchanged (R37, R47, R69, R78) -/

/-- The responses a command can have while the block runs (R37). -/
def Answers : Instr → Response → Prop
  | .b32Push _, r => r = .none ∨ ∃ b, r = .byte b
  | .b32End, r => r = .none
  | .ttmTrunc _, r => ∃ o x c str, r = .code o x c str

/-- None of them is `HALTED`. -/
theorem Answers.ne_halted {i : Instr} {r : Response} (h : Answers i r) : r ≠ .halted := by
  cases i with
  | b32Push c => obtain rfl | ⟨b, rfl⟩ := h <;> simp
  | b32End => cases h; simp
  | ttmTrunc d => obtain ⟨o, x, c, str, rfl⟩ := h; simp

/-- A running command sends one response, one of its own. -/
theorem effectOf_answers (i : Instr) (s : State) : ∃ r, (effectOf i s).tx = s.tx ++ [r] ∧ Answers i r := by
  cases i with
  | b32Push c =>
    rw [effectOf]
    obtain ⟨-, h⟩ | ⟨v, -, -, h⟩ | ⟨v, -, -, h⟩ := pushChar_cases c s
    · exact ⟨.none, by rw [h]; rfl, .inl rfl⟩
    · exact ⟨_, by rw [h]; rfl, .inr ⟨_, rfl⟩⟩
    · exact ⟨.none, by rw [h]; rfl, .inl rfl⟩
  | b32End => exact ⟨.none, rfl, rfl⟩
  | ttmTrunc d => exact ⟨codeResponse d, rfl, _, _, _, _, rfl⟩

/-- A dropped character only sends `NONE` (R47). -/
theorem effectOf_dropped {c : Byte} (s : State) (h : symbol c = none) : effectOf (.b32Push c) s = s.respond .none := by
  simp [effectOf, pushChar, h]

/-- Settles O34: a halted block only responds; a running one keeps to `effectOf_frame` and answers as the command's
kind does. -/
theorem commandFrame : Obligations.CommandFrame := by
  intro i s t h
  obtain ⟨hflt, rfl⟩ | ⟨hflt, rfl⟩ := exec_cases h
  · exact ⟨rfl, rfl, rfl, ⟨.halted, rfl, by simp [hflt], by simp [hflt]⟩, fun _ => ⟨rfl, rfl⟩, fun _ _ => ⟨rfl, rfl⟩,
      fun _ _ _ => ⟨rfl, rfl⟩⟩
  · obtain ⟨hf, hl, hr, -⟩ := effectOf_frame i s
    obtain ⟨r, htx, hans⟩ := effectOf_answers i s
    refine ⟨hf, hl, hr, ⟨r, htx, by simp [hflt, hans.ne_halted], fun _ => ⟨?_, ?_, ?_⟩⟩, by simp [hflt], ?_, ?_⟩
    · rintro c rfl
      exact hans
    · rintro rfl
      exact hans
    · rintro d rfl
      exact hans
    · rintro d rfl
      exact ⟨rfl, rfl⟩
    · rintro c rfl hdrop
      rw [effectOf_dropped s hdrop]
      exact ⟨rfl, rfl⟩

/-! ## Who writes the decoder (R17, R18) -/

/-- A running command that writes `ACC` or `NB` is a `B32.PUSH` of a valid character or a `B32.END`. -/
theorem effectOf_writes_decoder {i : Instr} {s : State} (h : (effectOf i s).acc ≠ s.acc ∨ (effectOf i s).nb ≠ s.nb) :
    (∃ c, i = .b32Push c ∧ symbol c ≠ none) ∨ i = .b32End := by
  cases i with
  | b32Push c =>
    refine .inl ⟨c, rfl, fun hdrop => ?_⟩
    simp [effectOf_dropped s hdrop] at h
  | b32End => exact .inr rfl
  | ttmTrunc d => simp [effectOf] at h

/-- Settles O35: of the five effects only a reset event and a running command can write `ACC` or `NB`, and of the
commands only the two of `effectOf_writes_decoder`. -/
theorem whoWritesTheDecoder : Obligations.WhoWritesTheDecoder := by
  intro s t h hw
  cases StepEffect.of_step h with
  | hold => simp at hw
  | reset p es hrx hp hf => exact .inr (.inr ⟨p, es, hrx, hp, hf, rfl⟩)
  | halted => simp at hw
  | exception => simp at hw
  | command i es hl hflt hrx =>
    obtain ⟨hkeep, -, hqueue, -⟩ := effectOf_frame i { s with rx := es }
    obtain ⟨c, rfl, hc⟩ | rfl := effectOf_writes_decoder (s := { s with rx := es }) hw
    · exact .inl ⟨c, by rw [hqueue]; exact hrx, hl, hflt, hc, hkeep.trans hflt⟩
    · exact .inr (.inl ⟨hrx, hl, hflt, rfl, rfl, hflt⟩)

end Sys2Proof.Machine
end

section
/-! SUPPORT. What `TTM.TRUNC` reads of its digest (R27, R63, R64), and what a step consumes and sends (R32, R37, R86). -/

namespace Sys2Proof.Machine

open Sys2Proof

/-! ## The bytes `TTM.TRUNC` reads (R27) -/

/-- The window starts at the low nibble of the last byte (R27, R63). -/
theorem windowByte_eq_getElem {d : Digest} {o : Nat} (h : d[19].toNat % 16 = o) (i : Fin 4) :
    windowByte d i = d[o + i.val]'(by omega) := by
  subst h
  simp only [windowByte, digestOffset_toNat]

/-- The `CODE` response reads the digest through its offset and its truncated value only (R67). -/
theorem codeResponse_congr {d e : Digest} (ho : digestOffset d = digestOffset e) (ht : truncated d = truncated e) :
    codeResponse d = codeResponse e := by
  simp only [codeResponse, dt, ho, ht]

/-- Settles O31: the nibble fixes the offset, the window without bit 7 of its first byte fixes `T`, and the response
reads nothing else. -/
theorem truncReadsOnlyOffsetAndWindow : Obligations.TruncReadsOnlyOffsetAndWindow := by
  intro d e s o _ hd he h0 h1 h2 h3
  have hoffset : digestOffset d = digestOffset e := by
    apply BitVec.eq_of_toNat_eq
    rw [digestOffset_toNat, digestOffset_toNat, hd, he]
  have htrunc : truncated d = truncated e := by
    apply BitVec.eq_of_toNat_eq
    simp [truncated_toNat, windowByte_eq_getElem hd, windowByte_eq_getElem he, h0, h1, h2, h3]
  rw [exec_eq, exec_eq, effectOf, effectOf, codeResponse_congr hoffset htrunc]

/-! ## One input, one response (R32, R37) -/

/-- Settles O21: a hold and a reset event send nothing; each of the other three effects leaves the queue behind exactly
one input and sends one response. -/
theorem oneResponsePerInput : Obligations.OneResponsePerInput := by
  intro s t h
  cases StepEffect.of_step h with
  | hold p hrx hp hf => exact .inr (.inr (.inr ⟨rfl, p, hrx, hp, hf⟩))
  | reset p es hrx hp hf => exact .inr (.inr (.inl ⟨p, es, hrx, hp, hf, rfl⟩))
  | halted bs es hl _ hrx hbs =>
    obtain ⟨i, rfl⟩ | ⟨op, hop, rfl⟩ := hbs
    · exact .inl ⟨hl, i, .halted, hrx, rfl⟩
    · obtain ⟨hpush, hend, htrunc⟩ := (formatOf_eq_none op).mp hop
      exact .inr (.inl ⟨hl, op, .halted, hpush, hend, htrunc, hrx, rfl⟩)
  | exception op es hl _ hop hrx =>
    obtain ⟨hpush, hend, htrunc⟩ := (formatOf_eq_none op).mp hop
    exact .inr (.inl ⟨hl, op, .fault op, hpush, hend, htrunc, hrx, rfl⟩)
  | command i es hl _ hrx =>
    obtain ⟨-, -, hqueue, r, htx⟩ := effectOf_frame i { s with rx := es }
    exact .inl ⟨hl, i, r, by rw [hqueue]; exact hrx, htx⟩

end Sys2Proof.Machine
end

section
/-! SUPPORT. The framing of the command stream: the operands a decoder still misses, and the round trip of every command
(R36, R38, R41). -/

namespace Sys2Proof.Machine

open Sys2Proof

/-! ## Opcodes and operand counts (R36, R38) -/

/-- The three assigned opcode bytes and their formats. -/
theorem formatOf_eq_some {op : Byte} {f : Format} (h : formatOf op = some f) :
    (op = opPush ∧ f = .c) ∨ (op = opEnd ∧ f = .z) ∨ (op = opTrunc ∧ f = .d) := by
  unfold formatOf at h
  split_ifs at h <;> simp_all

/-- Every instruction is framed as its opcode byte says. -/
theorem framedAsItsFormat (i : Instr) : Laws.FramedAsItsFormat.Statement i := by
  cases i with
  | b32Push c => exact Laws.FramedAsItsFormat.b32Push c
  | b32End => exact Laws.FramedAsItsFormat.b32End
  | ttmTrunc d => exact Laws.FramedAsItsFormat.ttmTrunc d

/-- An assigned opcode byte with as many operand bytes as its format has is some command's encoding: no operand is
illegal (R39, R40). -/
theorem exists_encode_eq {op : Byte} {f : Format} {ops : List Byte} (hf : formatOf op = some f)
    (hl : ops.length = f.operandCount) : ∃ i, encode i = op :: ops := by
  obtain ⟨rfl, rfl⟩ | ⟨rfl, rfl⟩ | ⟨rfl, rfl⟩ := formatOf_eq_some hf
  · obtain ⟨c, rfl⟩ := List.length_eq_one_iff.mp hl
    exact ⟨.b32Push c, rfl⟩
  · rw [List.length_eq_zero_iff.mp hl]
    exact ⟨.b32End, rfl⟩
  · exact ⟨.ttmTrunc ⟨ops.toArray, hl⟩, rfl⟩

/-! ## Incomplete inputs (R41) -/

theorem decodePush_eq_incomplete (ops : List Byte) : decodePush ops = .incomplete ↔ ops.length < 1 := by
  cases ops <;> simp [decodePush]

theorem decodeTrunc_eq_incomplete (ops : List Byte) : decodeTrunc ops = .incomplete ↔ ops.length < 20 := by
  refine ⟨fun h => ?_, fun h => by simp [decodeTrunc, takeDigest_short ops h]⟩
  cases hd : takeDigest ops with
  | none => exact takeDigest_none ops hd
  | some p => simp [decodeTrunc, hd] at h

/-- Behind an opcode byte an input is incomplete exactly while it has fewer operand bytes than the format. -/
theorem decode_cons_eq_incomplete (op : Byte) (ops : List Byte) :
    decode (op :: ops) = .incomplete ↔ ∃ f, formatOf op = some f ∧ ops.length < f.operandCount := by
  cases hf : formatOf op with
  | none => simp [decode_unassigned op ops hf]
  | some f =>
    obtain ⟨rfl, rfl⟩ | ⟨rfl, rfl⟩ | ⟨rfl, rfl⟩ := formatOf_eq_some hf
    · simpa [Format.operandCount] using decodePush_eq_incomplete ops
    · simp [Format.operandCount]
    · simpa [Format.operandCount] using decodeTrunc_eq_incomplete ops

/-- Missing operand bytes can always be supplied. -/
theorem exists_encode_of_incomplete {p : List Byte} (h : decode p = .incomplete) :
    ∃ (i : Instr) (q : List Byte), q ≠ [] ∧ encode i = p ++ q := by
  cases p with
  | nil => exact ⟨.b32End, [opEnd], by simp, rfl⟩
  | cons op ops =>
    obtain ⟨f, hf, hlt⟩ := (decode_cons_eq_incomplete op ops).mp h
    have hl : (ops ++ List.replicate (f.operandCount - ops.length) 0).length = f.operandCount := by simp; omega
    obtain ⟨i, hi⟩ := exists_encode_eq hf hl
    exact ⟨i, _, by simp; omega, hi⟩

/-- A proper prefix of a command is no command, which would leave the missing bytes over, and begins with no unassigned
byte, which the command would begin with too. -/
theorem decode_eq_incomplete_of_encode {i : Instr} {p q : List Byte} (hq : q ≠ []) (hi : encode i = p ++ q) :
    decode p = .incomplete := by
  have hd : decode (p ++ q) = .command i [] := by rw [← hi, ← List.append_nil (encode i), decode_encode_append]
  cases hp : decode p with
  | incomplete => rfl
  | command j rest =>
    rw [eq_encode_append_of_decode hp, List.append_assoc, decode_encode_append, Frame.command.injEq] at hd
    exact absurd (List.append_eq_nil_iff.mp hd.2).2 hq
  | illegal op rest =>
    obtain ⟨rfl, hop⟩ := decode_illegal _ _ _ hp
    rw [List.cons_append, decode_unassigned op _ hop] at hd
    cases hd

/-! ## The statements on the decoder -/

/-- Settles O1: `decode_encode_append`, and every instruction is framed as its format. -/
theorem decodeOfEncodeIsTheCommand : Obligations.DecodeOfEncodeIsTheCommand :=
  fun i rest => ⟨(framedAsItsFormat i).1, decode_encode_append i rest⟩

/-- Settles O2: each arm of the decoder reads off the bytes of its own encoding. -/
theorem decodedBytesAreTheEncoding : Obligations.DecodedBytesAreTheEncoding :=
  fun _ _ _ h => eq_encode_append_of_decode h

/-- Settles O6: the missing bytes can be supplied, and what lacks bytes is neither a command nor illegal. -/
theorem incompleteMeansBytesAreMissing : Obligations.IncompleteMeansBytesAreMissing :=
  fun _ => ⟨exists_encode_of_incomplete, fun ⟨_, _, hq, hi⟩ => decode_eq_incomplete_of_encode hq hi⟩

/-- Settles O3: the encoder's equations; behind the opcode byte of format D stands the digest, byte by byte. -/
theorem commandFormats : Obligations.CommandFormats := by
  refine ⟨encode_b32Push, encode_b32End, fun d => ⟨by simp, rfl, fun k => ?_⟩⟩
  rw [encode_ttmTrunc, List.getElem?_cons_succ]
  simp

/-- Settles O4: whole commands are encodings with bytes behind them, missing operands are counted, and every other byte
is unassigned. -/
theorem opcodeMap : Obligations.OpcodeMap := by
  refine ⟨decode_nil, rfl, fun c => decode_encode_append (.b32Push c), decode_encode_append .b32End,
    fun d => decode_encode_append (.ttmTrunc d), fun ops h => (decodeTrunc_eq_incomplete ops).mpr h, ?_⟩
  intro op rest hpush hend htrunc
  exact decode_unassigned op rest ((formatOf_eq_none op).mpr ⟨hpush, hend, htrunc⟩)

/-- Settles O5: three encodings written out, two unassigned bytes, and a word whose low byte is the opcode. -/
theorem writtenWordsDecode : Obligations.WrittenWordsDecode :=
  ⟨decode_encode_append (.b32Push 0x4A) [], decode_encode_append .b32End [], decode_encode_append
    (.ttmTrunc #v[0x1F, 0x86, 0x98, 0x69, 0x0E, 0x02, 0xCA, 0x16, 0x61, 0x85, 0x50, 0xEF, 0x7F, 0x19, 0xDA, 0x8E, 0x94,
      0x5B, 0x55, 0x5A]) [],
    decode_unassigned 0x00 [] rfl, decode_unassigned 0xFF [0x01] rfl, rfl⟩

/-! ## Steps on a partial command, a placed word and a string (R41, R43) -/

/-- With no whole input and no reset event queued the block holds (R41). -/
theorem step_of_incomplete {s : State} {p : List Byte} (hl : s.live = true) (hp : decode p = .incomplete)
    (hr : s.rx = p.map Input.byte) : step s = .next s := by
  have hbytes : bytesBeforeReset s.rx = p := by simpa [hr, bytesBeforeReset] using bytesBeforeReset_map_append p []
  have hreset : fromReset s.rx = [] := by simpa [hr, fromReset] using fromReset_map_append p []
  simp [step, fetch, fetchLive, fetchReset, hl, hbytes, hp, hreset]

/-- Settles O18: a proper prefix of a command is incomplete, and an incomplete input holds the block. -/
theorem partialCommandHolds : Obligations.PartialCommandHolds :=
  fun _ _ _ _ hl hi hq hr => step_of_incomplete hl (decode_eq_incomplete_of_encode hq hi) hr

/-- A table word that reads as a command places exactly that command's bytes (R41, R92). -/
theorem inputOfWord_of_decodeTableWord {nbits w : Nat} {i : Instr} (h : decodeTableWord nbits w = some i) :
    inputOfWord nbits w = encode i := by
  obtain ⟨rest, hw⟩ : ∃ rest, bytesOfWord nbits w = encode i ++ rest := by
    unfold decodeTableWord at h
    cases hd : decode (bytesOfWord nbits w) with
    | command j rest =>
      rw [hd, Option.some.injEq] at h
      exact ⟨rest, h ▸ eq_encode_append_of_decode hd⟩
    | illegal op rest => simp [hd] at h
    | incomplete => simp [hd] at h
  obtain ⟨-, op, f, ops, he, -, -, hlen⟩ := framedAsItsFormat i
  have hops : inputLength op - 1 = ops.length := by rw [← hlen, he]; rfl
  rw [inputOfWord, hw, he]
  simp [hops]

/-- Settles O11: the placed bytes are the instruction's encoding at the head of the queue. -/
theorem placedWordRunsNext : Obligations.PlacedWordRunsNext := by
  intro s nbits w i h
  refine step_encode rfl ?_
  rw [State.withFetchWord, State.putInput_rx, inputOfWord_of_decodeTableWord h]

/-- Settles O46: the expansions are the model's equations, and `run_str` is the run from a boundary. -/
theorem stringExpansionDecodes : Obligations.StringExpansionDecodes :=
  ⟨rfl, fun _ _ => rfl, fun s str es hs hr => ⟨rfl, run_str s str es hs hr⟩⟩

end Sys2Proof.Machine
end

section
/-! SUPPORT. The bytes of a response and the host's parser of them (R37), and the bytes of a bus digest (R39). -/

namespace Sys2Proof.Machine

open Sys2Proof

/-- A code string is its six characters (R66). -/
theorem codeString_eta (s : CodeString) : #v[s[0], s[1], s[2], s[3], s[4], s[5]] = s := by
  ext k hk
  interval_cases k <;> rfl

theorem codeString_toList (s : CodeString) : s.toList = [s[0], s[1], s[2], s[3], s[4], s[5]] :=
  (congrArg Vector.toList (codeString_eta s)).symm

/-- The four bytes of a number, joined again (R28). -/
theorem append_bytesOf32 (t : BitVec 32) :
    t.extractLsb' 24 8 ++ t.extractLsb' 16 8 ++ t.extractLsb' 8 8 ++ t.extractLsb' 0 8 = t := by
  rw [BitVec.extractLsb'_append_extractLsb'_eq_extractLsb' (show 24 = 16 + 8 from rfl),
    BitVec.extractLsb'_append_extractLsb'_eq_extractLsb' (show 16 = 8 + 8 from rfl),
    BitVec.extractLsb'_append_extractLsb'_eq_extractLsb' (show 8 = 0 + 8 from rfl)]
  exact BitVec.extractLsb'_eq_self

/-- The three bytes of a number, joined again (R28). -/
theorem append_bytesOf24 (c : BitVec 24) : c.extractLsb' 16 8 ++ c.extractLsb' 8 8 ++ c.extractLsb' 0 8 = c := by
  rw [BitVec.extractLsb'_append_extractLsb'_eq_extractLsb' (show 16 = 8 + 8 from rfl),
    BitVec.extractLsb'_append_extractLsb'_eq_extractLsb' (show 8 = 0 + 8 from rfl)]
  exact BitVec.extractLsb'_eq_self

/-- The payload of a `CODE` response reads back (R37). -/
theorem parseCode_payload (o : Byte) (t : BitVec 32) (c : BitVec 24) (s : CodeString) (rest : List Byte) :
    parseCode (o :: (bytesOf32 t ++ bytesOf24 c ++ s.toList ++ rest)) = some (.code o t c s, rest) := by
  rw [codeString_toList]
  simp only [bytesOf32, bytesOf24, List.cons_append, List.nil_append, parseCode, append_bytesOf32, append_bytesOf24,
    codeString_eta]

/-- Settles O7: each status byte selects its own arm of the parser, and the payload of `CODE` reads back. -/
theorem responsesParseBack : Obligations.ResponsesParseBack := by
  intro r rest
  cases r with
  | none => rfl
  | byte b => rfl
  | code o t c s => exact parseCode_payload o t c s rest
  | fault op => rfl
  | halted => rfl

/-- Settles O8: the payload slices of `CODE` are the base-256 digits of its numbers. -/
theorem responseLayout : Obligations.ResponseLayout := by
  refine ⟨rfl, fun _ => rfl, fun _ => rfl, rfl, fun o t c s => ⟨by simp [Response.bytes, bytesOf32, bytesOf24], ?_⟩⟩
  simp [Response.bytes, bytesOf32, bytesOf24, extractLsb'_eq_ofNat, codeString_toList, statusCode]

/-- The bytes of a bus digest are the base-256 digits of the bus value (R28, R39). -/
theorem digestOfBus_toList (bus : BitVec 160) : (digestOfBus bus).toList = bigEndian 20 bus.toNat := by
  apply List.ext_getElem
  · simp [bigEndian]
  · intro k hk _
    have hk20 : k < 20 := by simpa using hk
    have hpow : 2 ^ (152 - 8 * k) = 256 ^ (19 - k) := by
      rw [show 152 - 8 * k = 8 * (19 - k) by omega, Nat.pow_mul]
    simp [digestOfBus, bigEndian, extractLsb'_eq_ofNat, hpow]

/-- Settles O9: twenty base-256 digits spell every number of 160 bits. -/
theorem busDigestIsBigEndian : Obligations.BusDigestIsBigEndian := by
  intro bus
  rw [digestOfBus_toList, foldl_bigEndian, Nat.zero_mul, Nat.zero_add]
  exact Nat.mod_eq_of_lt bus.isLt

end Sys2Proof.Machine
end

section
/-! SUPPORT. The characters (R45, R46) and the reference function `decode` (R44, R49, R50, R56). -/

namespace Sys2Proof.Machine

open Sys2Proof

/-! ## Characters (R45, R46) -/

/-- Settles O39: the subtraction stays above 0, since 0x20 is below 0x61. -/
theorem uppercaseIsAsciiOnly : Obligations.UppercaseIsAsciiOnly := by
  refine fun c => ⟨fun h => ?_, fun h => if_neg h⟩
  have hle : (0x20 : Byte) ≤ c := by rw [BitVec.le_def]; simp; omega
  rw [upcase, if_pos h, BitVec.toNat_sub_of_le hle]
  rfl

/-- Settles O40: a finite fact, over the 256 characters. -/
theorem indexIsThePositionInTheAlphabet : Obligations.IndexIsThePositionInTheAlphabet :=
  ⟨by decide, by decide⟩

/-! ## The reference function (R44) -/

/-- `decode` with its second step skipped (R50). -/
theorem decodeString_eq (s : List Byte) : decodeString s = sliceBytes (bitString (charSymbols s)) := by
  rw [decodeString, stringSymbols_eq_charSymbols]

/-- Settles O41: step 2 leaves the symbols as they are. -/
theorem padStripHasNoEffect : Obligations.PadStripHasNoEffect :=
  ⟨fun s => ⟨stringSymbols_eq_charSymbols s, decodeString_eq s⟩, by decide, by decide, by decide⟩

/-- Settles O42: five bits a symbol, eight bits a byte. -/
theorem decodeLength : Obligations.DecodeLength := by
  intro s
  rw [decodeString_eq, sliceBytes_length, bitString_length, validCharCount]

/-- `decode` depends on the symbols of its string only (R47). -/
theorem decodeString_congr {s u : List Byte} (h : charSymbols s = charSymbols u) : decodeString s = decodeString u := by
  rw [decodeString_eq, decodeString_eq, h]

/-- Dropped characters have no symbols (R47). -/
theorem charSymbols_of_dropped {s : List Byte} (h : ∀ c ∈ s, symbol c = none) : charSymbols s = [] :=
  List.filterMap_eq_nil_iff.mpr h

theorem charSymbols_map_upcase (s : List Byte) : charSymbols (s.map upcase) = charSymbols s := by
  rw [charSymbols, List.filterMap_map]
  exact List.filterMap_congr fun c _ => symbol_upcase c

theorem charSymbols_filter_valid (s : List Byte) : charSymbols (s.filter fun c => (symbol c).isSome) = charSymbols s := by
  rw [charSymbols, List.filterMap_filter]
  refine List.filterMap_congr fun c _ => ?_
  cases symbol c <;> rfl

/-- Settles O43: each string has the symbols of the string it is compared with. -/
theorem decodeIgnoresCaseAndInvalid : Obligations.DecodeIgnoresCaseAndInvalid :=
  ⟨rfl, fun _ h => decodeString_congr (u := []) (charSymbols_of_dropped h),
    fun s => decodeString_congr (charSymbols_map_upcase s), fun s => decodeString_congr (charSymbols_filter_valid s)⟩

end Sys2Proof.Machine
end

section
/-! SUPPORT. The two commands of the decoder in arithmetic, row by row and on the list of bits (R51, R52, R54, R59), and
the bits of `ACC` they never show (note on D24). -/

namespace Sys2Proof.Machine

open Sys2Proof

/-! ## Commands on a running block (R52, R53) -/

/-- Settles O26: the two outcomes of the halted check. -/
theorem endClearsTheDecoder : Obligations.EndClearsTheDecoder :=
  fun s => ⟨exec_running .b32End s, exec_halted .b32End s⟩

/-- Settles O33: a running command has its effect, which leaves `FLT` alone. -/
theorem noExceptionDependsOnData : Obligations.NoExceptionDependsOnData := by
  intro i s hf
  obtain ⟨hflt, -⟩ := effectOf_frame i s
  exact ⟨effectOf i s, exec_running i s hf, hflt.trans hf⟩

/-! ## One character in arithmetic (R51) -/

/-- A valid character has its symbol accepted. -/
theorem effectOf_valid {c : Byte} {v : BitVec 5} (s : State) (hv : symbol c = some v) :
    effectOf (.b32Push c) s = acceptSymbol v s := by
  simp [effectOf, pushChar, hv]

/-- A valid character that completes a byte. -/
theorem exec_push_emit {s : State} {c : Byte} {v : BitVec 5} (hf : s.flt = false) (hv : symbol c = some v)
    (h8 : 8 ≤ s.nb.toNat + 5) :
    exec (.b32Push c) s = .next (emitByte (appendSymbol s.acc v) (s.nb.toNat + 5) s) := by
  rw [exec_running _ _ hf, effectOf_valid s hv, acceptSymbol, if_pos h8]

/-- A valid character that completes none. -/
theorem exec_push_keep {s : State} {c : Byte} {v : BitVec 5} (hf : s.flt = false) (hv : symbol c = some v)
    (h8 : s.nb.toNat + 5 < 8) :
    exec (.b32Push c) s = .next (keepBits (appendSymbol s.acc v) (s.nb.toNat + 5) s) := by
  rw [exec_running _ _ hf, effectOf_valid s hv, acceptSymbol, if_neg (Nat.not_le.mpr h8)]

theorem emitByte_eq (t : BitVec 12) (n : Nat) (s : State) : emitByte t n s = { s with
    acc := BitVec.ofNat 7 (t.toNat % 2 ^ (n - 8)), nb := BitVec.ofNat 3 (n - 8),
    tx := s.tx ++ [.byte (BitVec.ofNat 8 (t.toNat / 2 ^ (n - 8)))] } := by
  have hacc : (t.extractLsb' 0 (n - 8)).setWidth 7 = BitVec.ofNat 7 (t.toNat % 2 ^ (n - 8)) := by
    apply BitVec.eq_of_toNat_eq
    simp
  rw [emitByte, hacc, extractLsb'_eq_ofNat]
  rfl

theorem keepBits_eq (t : BitVec 12) (n : Nat) (s : State) : keepBits t n s = { s with
    acc := BitVec.ofNat 7 t.toNat, nb := BitVec.ofNat 3 n, tx := s.tx ++ [.none] } := by
  rw [keepBits, extractLsb'_eq_ofNat, Nat.pow_zero, Nat.div_one]
  rfl

/-- The symbol of a valid character as a number (R46). -/
theorem symbol_of_ranges {c : Byte} {v : Nat}
    (h : (0x41 ≤ c.toNat ∧ c.toNat ≤ 0x5A ∧ v = c.toNat - 0x41) ∨ (0x61 ≤ c.toNat ∧ c.toNat ≤ 0x7A ∧ v = c.toNat - 0x61) ∨
      (0x32 ≤ c.toNat ∧ c.toNat ≤ 0x37 ∧ v = c.toNat - 0x32 + 26)) :
    v < 32 ∧ symbol c = some (BitVec.ofNat 5 v) := by
  obtain ⟨hupper, hlower, hdigit⟩ := symbol_ranges c
  obtain ⟨hlo, hhi, rfl⟩ | ⟨hlo, hhi, rfl⟩ | ⟨hlo, hhi, rfl⟩ := h
  · exact ⟨by omega, hupper ⟨hlo, hhi⟩⟩
  · exact ⟨by omega, hlower ⟨hlo, hhi⟩⟩
  · exact ⟨by omega, hdigit ⟨hlo, hhi⟩⟩

/-- Settles O23: the halted check, a dropped character, and the two forms of a valid one with `t = 32 * ACC + v`. -/
theorem pushPresentsOneCharacter : Obligations.PushPresentsOneCharacter := by
  refine fun s c v => ⟨exec_halted _ s, fun hf hupper hlower hdigit => ?_, fun hf hr => ?_⟩
  · have hdrop : symbol c = none := (symbol_eq_none c).mpr ⟨hupper, hlower, hdigit⟩
    rw [exec_running _ _ hf, effectOf_dropped s hdrop]
    rfl
  · obtain ⟨hv, hsym⟩ := symbol_of_ranges hr
    have ht : (appendSymbol s.acc (BitVec.ofNat 5 v)).toNat = 32 * s.acc.toNat + v := by
      rw [appendSymbol_toNat, BitVec.toNat_ofNat, Nat.mod_eq_of_lt hv]
    refine ⟨fun h8 => ?_, fun h8 => ?_⟩
    · rw [exec_push_emit hf hsym h8, emitByte_eq, ht]
    · rw [exec_push_keep hf hsym h8, keepBits_eq, ht]

/-! ## One character by the value of `NB` (R54) -/

/-- Where `t` has no bit above the `n` lowest, keeping seven bits is keeping `n`. -/
theorem extractLsb'_eq_of_zero_above {t : BitVec 12} {n : Nat} (h : ∀ j < 7, n ≤ j → t.getLsbD j = false) :
    t.extractLsb' 0 7 = (t.extractLsb' 0 n).setWidth 7 := by
  apply BitVec.eq_of_getLsbD_eq
  intro j hj
  by_cases hn : j < n
  · simp [hj, hn]
  · simp [hj, hn, h j hj (by omega)]

/-- A row of R54 that emits: `m` is the new `NB`. -/
theorem exec_push_emit_row {s : State} {c : Byte} {v : BitVec 5} {m : Nat} (hf : s.flt = false)
    (hv : symbol c = some v) (hm : s.nb.toNat + 5 = m + 8) :
    exec (.b32Push c) s = .next { s with
      acc := ((appendSymbol s.acc v).extractLsb' 0 m).setWidth 7, nb := BitVec.ofNat 3 m,
      tx := s.tx ++ [.byte ((appendSymbol s.acc v).extractLsb' m 8)] } := by
  have hsub : s.nb.toNat + 5 - 8 = m := by omega
  rw [exec_push_emit hf hv (by omega), emitByte, hsub]
  rfl

/-- A row of R54 that emits nothing: `m` is the new `NB`. -/
theorem exec_push_keep_row {s : State} {c : Byte} {v : BitVec 5} {m : Nat} (hs : s.Inv) (hf : s.flt = false)
    (hv : symbol c = some v) (hm : s.nb.toNat + 5 = m) (h8 : m < 8) :
    exec (.b32Push c) s = .next { s with
      acc := ((appendSymbol s.acc v).extractLsb' 0 m).setWidth 7, nb := BitVec.ofNat 3 m,
      tx := s.tx ++ [.none] } := by
  subst hm
  rw [exec_push_keep hf hv h8, keepBits, extractLsb'_eq_of_zero_above (appendSymbol_zero_above hs v)]
  rfl

/-- Settles O24: `NB` below 3 keeps the five new bits behind the old ones, `NB` of 3 or more emits. -/
theorem pushTableByNb : Obligations.PushTableByNb := by
  intro s c v t hs hf hv ht
  subst ht
  have hnb {k : BitVec 3} (h : s.nb = k) : s.nb.toNat + 5 = k.toNat + 5 := congrArg (·.toNat + 5) h
  refine ⟨fun h => ?_, fun h => ?_, fun h => ?_, fun h => ?_, fun h => ?_, fun h => ?_, fun h => ?_, fun h => ?_⟩
  · exact exec_push_keep_row hs hf hv (hnb h) (by decide)
  · exact exec_push_keep_row hs hf hv (hnb h) (by decide)
  · rw [exec_push_keep_row (m := 7) hs hf hv (hnb h) (by decide), BitVec.setWidth_eq]
    rfl
  · rw [exec_push_emit_row (m := 0) hf hv (hnb h), BitVec.of_length_zero (x := BitVec.extractLsb' 0 0 _)]
    rfl
  · exact exec_push_emit_row hf hv (hnb h)
  · exact exec_push_emit_row hf hv (hnb h)
  · exact exec_push_emit_row hf hv (hnb h)
  · exact exec_push_emit_row hf hv (hnb h)

/-! ## One character on the list of bits (R59) -/

/-- Settles O25: the list is the `NB + 5` low bits of `t`; its first eight are the emitted slice and the others what
the register keeps. -/
theorem pushOnTheListOfBits : Obligations.PushOnTheListOfBits := by
  intro s c v hf hv
  have hbits : s.residual ++ symbolBits v = lowBits (appendSymbol s.acc v) (s.nb.toNat + 5) := by
    rw [residual_eq, lowBits_appendSymbol]
  rw [hbits, lowBits_length]
  have hnb := s.nb.isLt
  by_cases h8 : 8 ≤ s.nb.toNat + 5
  · refine ⟨_, exec_push_emit hf hv h8, fun _ => ⟨?_, ?_⟩, fun h => absurd h8 (by omega)⟩
    · rw [emitByte_residual _ _ _ (by omega), lowBits_drop]
    · rw [groupByte_lowBits _ _ h8]
      rfl
  · have hlt : s.nb.toNat + 5 < 8 := by omega
    exact ⟨_, exec_push_keep hf hv hlt, fun h => absurd h h8, fun _ => ⟨keepBits_residual _ _ _ hlt, rfl⟩⟩

/-! ## Stale bits (note on D24) -/

/-- Two values of `ACC` with the same `n` lowest bits. -/
def AgreeBelow (n : Nat) (a b : BitVec 7) : Prop := ∀ j : Fin 7, j.val < n → a.getLsbD j.val = b.getLsbD j.val

/-- `t` has the same bits below `n + 5` for both. -/
theorem AgreeBelow.appendSymbol_getLsbD {n : Nat} {a b : BitVec 7} (h : AgreeBelow n a b) (v : BitVec 5) {j : Nat}
    (hj : j < n + 5) : (appendSymbol a v).getLsbD j = (appendSymbol b v).getLsbD j := by
  rw [Machine.appendSymbol_getLsbD, Machine.appendSymbol_getLsbD]
  split_ifs with h5
  · rfl
  · by_cases h7 : j - 5 < 7
    · exact h ⟨j - 5, h7⟩ (by simp; omega)
    · rw [BitVec.getLsbD_of_ge _ _ (by omega), BitVec.getLsbD_of_ge _ _ (by omega)]

/-- Slices of two vectors below a bit up to which they agree. -/
theorem extractLsb'_congr {t u : BitVec 12} {n lo len : Nat} (h : ∀ j < n, t.getLsbD j = u.getLsbD j)
    (hn : lo + len ≤ n) : t.extractLsb' lo len = u.extractLsb' lo len := by
  apply BitVec.eq_of_getLsbD_eq
  intro j hj
  rw [BitVec.getLsbD_extractLsb', BitVec.getLsbD_extractLsb', h _ (by omega)]

/-- A running command does the same to a state with other stale bits, but for the stale bits of the outcome. -/
theorem effectOf_stale (i : Instr) (s : State) {a : BitVec 7} (h : AgreeBelow s.nb.toNat a s.acc) :
    ∃ a', effectOf i { s with acc := a } = { effectOf i s with acc := a' } ∧
      AgreeBelow (effectOf i s).nb.toNat a' (effectOf i s).acc := by
  cases i with
  | b32Push c =>
    cases hv : symbol c with
    | none =>
      rw [effectOf_dropped _ hv, effectOf_dropped _ hv]
      exact ⟨a, rfl, h⟩
    | some v =>
      have hbits : ∀ j < s.nb.toNat + 5, (appendSymbol a v).getLsbD j = (appendSymbol s.acc v).getLsbD j :=
        fun j => h.appendSymbol_getLsbD v
      simp only [effectOf_valid _ hv, acceptSymbol]
      split_ifs with h8
      · refine ⟨((appendSymbol s.acc v).extractLsb' 0 (s.nb.toNat + 5 - 8)).setWidth 7, ?_, fun _ _ => rfl⟩
        simp only [emitByte]
        rw [extractLsb'_congr hbits (by omega), extractLsb'_congr hbits (by omega)]
        rfl
      · refine ⟨(appendSymbol a v).extractLsb' 0 7, rfl, fun j hj => ?_⟩
        have hn : (BitVec.ofNat 3 (s.nb.toNat + 5)).toNat = s.nb.toNat + 5 := by simp; omega
        simp only [keepBits, State.respond_nb, State.setDecoder_nb, hn] at hj
        simp [keepBits, hbits j hj]
  | b32End => exact ⟨0, rfl, fun _ _ => rfl⟩
  | ttmTrunc d => exact ⟨a, rfl, h⟩

/-- Settles O36: halted, `ACC` is not read; running, it is `effectOf_stale`. -/
theorem staleBitsNeverShow : Obligations.StaleBitsNeverShow := by
  intro i s t a h hx
  obtain ⟨hf, rfl⟩ | ⟨hf, rfl⟩ := exec_cases hx
  · exact ⟨a, exec_halted i { s with acc := a } hf, h⟩
  · obtain ⟨a', heq, hagree⟩ := effectOf_stale i s h
    exact ⟨a', (exec_running i { s with acc := a } hf).trans (congrArg _ heq), hagree⟩

end Sys2Proof.Machine
end

section
/-! SUPPORT. Runs of the decoder on a stream of characters (R47, R55, R60). -/

namespace Sys2Proof.Machine

open Sys2Proof

/-- Settles O44, by induction on the characters: the first step answers `NONE` and leaves the same state with the other
characters queued. -/
theorem droppedCharactersVanish : Obligations.DroppedCharactersVanish := by
  intro s cs es hl hf hdrop hr
  induction cs generalizing s with
  | nil =>
    obtain rfl : s.rx = es := hr
    simp
  | cons c cs ih =>
    rw [List.map_cons, wire_cons, List.append_assoc] at hr
    have hc : symbol c = none := hdrop c (by simp)
    have hstep := step_encode_running hl hf hr
    rw [effectOf_dropped _ hc] at hstep
    rw [List.length_cons, run_succ hstep,
      ih (State.respond .none { s with rx := _ }) hl hf (fun d hd => hdrop d (by simp [hd])) rfl]
    simp [State.respond, List.replicate_succ]

/-! ## Streaming from a string boundary (R55) -/

theorem State.AtBoundary.residual_eq_nil {s : State} (hs : s.AtBoundary) : s.residual = [] := by
  obtain ⟨-, -, -, hnb⟩ := hs
  exact List.eq_nil_of_length_eq_zero (by simp [residual_length, hnb])

theorem State.AtBoundary.inv {s : State} (hs : s.AtBoundary) : s.Inv := by
  obtain ⟨-, -, hacc, -⟩ := hs
  exact .of_acc_eq_zero hacc

/-- The invariant holds all along a run (R19). -/
theorem run_keeps_inv {k : Nat} {s t : State} (hs : s.Inv) (h : run k s = .next t) : t.Inv := by
  induction k generalizing s with
  | zero =>
    cases h
    exact hs
  | succ k ih =>
    cases hstep : step s with
    | next u =>
      rw [run_succ hstep] at h
      exact ih (stepKeepsTheInvariant s u hs hstep) h
    | fault r => simp [run, hstep] at h
    | refused r => simp [run, hstep] at h

/-- The bits presented, counted (R48). -/
theorem presentedBits_length (is : List Instr) : (presentedBits is).length = 5 * validCharCount (pushedChars is) := by
  rw [presentedBits, bitString_length, validCharCount]

/-- Settles O45: from a boundary the bits sliced and left over are the presented ones alone (`run_streamed`); the
invariant is that of the run. -/
theorem streamingAgreesWithDecode : Obligations.StreamingAgreesWithDecode := by
  intro s is hs hend hr
  have ⟨hlive, hflt, _, _⟩ := hs
  obtain ⟨t, hrun, hrx, hst⟩ := run_streamed is s [] hlive hflt hend (by rw [hr, List.append_nil])
  have htf : t.flt = false := hst.flt.trans hflt
  have htl : t.live = true := hst.live.trans hlive
  have hres : t.residual = leftover (presentedBits is) := by rw [hst.residual, hs.residual_eq_nil, List.nil_append]
  have hbits : bitString (stringSymbols (pushedChars is)) = presentedBits is := by
    rw [stringSymbols_eq_charSymbols, presentedBits]
  have hdec : decodeString (pushedChars is) = sliceBytes (presentedBits is) := by rw [decodeString, hbits]
  obtain ⟨rs, hlen, htx, hpay⟩ := hst.responses
  rw [hs.residual_eq_nil, List.nil_append, ← hdec] at hpay
  refine ⟨t, hrun, ⟨rs, hlen, htx, hpay, by rw [hpay, decodeLength]⟩, ?_, ?_, run_keeps_inv hs.inv hrun, htf, htl, hrx, ?_⟩
  · rw [← residual_length, hres, leftover, List.length_drop, presentedBits_length]
    omega
  · rw [hres, leftover, presentedBits_length, hbits]
  · rw [step_encode_running (i := .b32End) (s := t.send _) (es := []) htl htf (by rw [State.send_rx, hrx]; rfl), ← hrx]
    rfl

/-! ## Two strings (R60) -/

/-- The responses a run has added to those before it. -/
theorem newResponses_append (s t : State) (rs : List Response) (h : t.tx = s.tx ++ rs) : newResponses s t = rs := by
  rw [newResponses, h, List.drop_left]

/-- Settles O47: with the boundary `run_str` runs twice; without it the two strings are one, `s1 ++ s2`. -/
theorem twoStringsInSequence : Obligations.TwoStringsInSequence := by
  refine ⟨fun s s1 s2 hs hr => ?_, fun s s1 s2 hs hr => ?_, by decide⟩
  · rw [wire_append] at hr
    obtain ⟨rs1, hp1, hrun1⟩ := run_str s s1 (wire (strExpansion s2)) hs hr
    obtain ⟨rs2, hp2, hrun2⟩ := run_str (str := s2) (es := []) (s := { s with rx := wire (strExpansion s2), tx := s.tx ++ rs1 }) hs
      (List.append_nil _).symm
    refine ⟨_, (run_add hrun1).trans hrun2, ?_, hs⟩
    rw [newResponses_append s _ (rs1 ++ rs2) (List.append_assoc ..), bytePayloads_append, hp1, hp2]
  · have hjoin : s1.map Instr.b32Push ++ strExpansion s2 = strExpansion (s1 ++ s2) := by simp [strExpansion]
    rw [hjoin, ← List.append_nil (wire _)] at hr
    obtain ⟨rs, hp, hrun⟩ := run_str s (s1 ++ s2) [] hs hr
    rw [List.length_append, Nat.add_assoc] at hrun
    exact ⟨_, hrun, by rw [newResponses_append s _ rs rfl, hp], hs⟩

end Sys2Proof.Machine
end

section
/-! SUPPORT. `TTM.TRUNC` in arithmetic: the window as a number, the code and its six characters (R63 to R70). -/

namespace Sys2Proof.Machine

open Sys2Proof

/-! ## The truncated value (R64) -/

/-- Four window bytes of which the first gives seven bits. -/
theorem dt_lt (d : Digest) : dt d < 2 ^ 31 := by
  rw [dt, truncated_toNat]
  omega

/-- A digest whose window stands at offset 0 and holds `x`, the most significant byte first (R28, R63). -/
def digestHolding (x : Nat) : Digest := Vector.ofFn fun k => if k.val < 4 then BitVec.ofNat 8 (x / 256 ^ (3 - k.val)) else 0

theorem windowByte_digestHolding (x : Nat) (i : Fin 4) :
    windowByte (digestHolding x) i = BitVec.ofNat 8 (x / 256 ^ (3 - i.val)) := by
  have hoffset : (digestHolding x)[19].toNat % 16 = 0 := by simp [digestHolding]
  rw [windowByte_eq_getElem hoffset]
  simp [digestHolding]

theorem dt_digestHolding {x : Nat} (hx : x < 2 ^ 31) : dt (digestHolding x) = x := by
  simp only [dt, truncated_toNat, windowByte_digestHolding, BitVec.toNat_ofNat,
    Fin.coe_ofNat_eq_mod, Nat.reduceMod, Nat.reduceSub, Nat.reducePow]
  omega

/-- Settles O29: the bytes of `x` are placed in the window at offset 0; the masked bit of the first is 0. -/
theorem everyTruncatedValueIsReached : Obligations.EveryTruncatedValueIsReached :=
  fun x hx => ⟨digestHolding x, dt_digestHolding hx⟩

/-! ## The code and its characters (R65, R66) -/

theorem codeOf_lt (t : Nat) : codeOf t < 1000000 := Nat.mod_lt _ (by norm_num)

/-- The 24 bits on the wire hold the whole code (R37, R65). -/
theorem toNat_ofNat_codeOf (t : Nat) : (BitVec.ofNat 24 (codeOf t)).toNat = codeOf t := by
  have hlt := codeOf_lt t
  rw [BitVec.toNat_ofNat]
  omega

theorem digit_lt (c k : Nat) : digit c k < 10 := Nat.mod_lt _ (by norm_num)

/-- The number six characters spell in decimal, the most significant first (R66). -/
def codeValue (str : CodeString) : Nat :=
  (str[0].toNat - 0x30) * 100000 + (str[1].toNat - 0x30) * 10000 + (str[2].toNat - 0x30) * 1000
    + (str[3].toNat - 0x30) * 100 + (str[4].toNat - 0x30) * 10 + (str[5].toNat - 0x30)

/-- Reading a rendered code gives the code back. -/
theorem codeValue_render {c : Nat} (hc : c < 1000000) : codeValue (render c) = c := by
  simp only [codeValue, render_getElem, Nat.add_sub_cancel_left]
  exact (digit_sum c hc).symm

/-- The six characters of a code, written out. -/
theorem render_eq {c : Nat} (hc : c < 1000000) : render c =
    #v[BitVec.ofNat 8 (0x30 + c / 100000), BitVec.ofNat 8 (0x30 + c / 10000 % 10), BitVec.ofNat 8 (0x30 + c / 1000 % 10),
      BitVec.ofNat 8 (0x30 + c / 100 % 10), BitVec.ofNat 8 (0x30 + c / 10 % 10), BitVec.ofNat 8 (0x30 + c % 10)] := by
  have hfirst : c / 100000 % 10 = c / 100000 := Nat.mod_eq_of_lt (by omega)
  rw [← codeString_eta (render c)]
  simp [render, digit, hfirst]

/-- Settles O30: a code is the value of its characters. -/
theorem renderIsInjective : Obligations.RenderIsInjective := by
  intro a b ha hb h
  calc
    a = codeValue (render a) := (codeValue_render (by omega)).symm
    _ = codeValue (render b) := congrArg codeValue h
    _ = b := codeValue_render (by omega)

/-! ## The command (R67, R69, R70) -/

/-- Settles O32: the response is that of the digest alone. -/
theorem truncIsStateless : Obligations.TruncIsStateless :=
  fun d => ⟨codeResponse d, fun s => ⟨exec_running (.ttmTrunc d) s, exec_halted (.ttmTrunc d) s⟩⟩

/-- Settles O28: the numbers of the response by their own bounds, the characters by their digits. -/
theorem truncIsAlwaysWellFormed : Obligations.TruncIsAlwaysWellFormed := by
  intro d s hf
  have hT := dt_lt d
  have hC := codeOf_lt (dt d)
  refine ⟨digestOffset d, truncated d, BitVec.ofNat 24 (codeOf (dt d)), render (codeOf (dt d)),
    exec_running (.ttmTrunc d) s hf, digestOffset_le d, Nat.le_sub_one_of_lt hT, ?_⟩
  rw [toNat_ofNat_codeOf]
  refine ⟨Nat.le_of_lt_succ hC, rfl, fun k => ?_, rfl, (codeValue_render hC).symm⟩
  have hchar : (render (codeOf (dt d)))[k].toNat = 0x30 + digit (codeOf (dt d)) k := render_getElem _ k k.isLt
  have hdigit := digit_lt (codeOf (dt d)) k
  omega

/-- The `CODE` response of a digest in numbers (R67). -/
theorem codeResponse_eq {d : Digest} {o t : Nat} (ho : d[19].toNat % 16 = o) (ht : dt d = t) :
    codeResponse d = .code (BitVec.ofNat 8 o) (BitVec.ofNat 32 t) (BitVec.ofNat 24 (codeOf t)) (render (codeOf t)) := by
  subst ho ht
  rw [codeResponse, dt, BitVec.ofNat_toNat, BitVec.setWidth_eq, ← digestOffset_toNat, BitVec.ofNat_toNat, BitVec.setWidth_eq]

/-- Settles O27: the window bytes give `T`, and the characters are written out. -/
theorem truncComputesTheCode : Obligations.TruncComputesTheCode := by
  rintro s d w0 w1 w2 w3 t c rfl rfl rfl rfl ht rfl
  have hdt : dt d = t := by
    simp only [dt, truncated_toNat, windowByte_eq_getElem rfl]
    exact ht.symm
  refine ⟨fun hf => ?_, exec_halted (.ttmTrunc d) s⟩
  rw [exec_running _ s hf, effectOf, codeResponse_eq rfl hdt, render_eq (codeOf_lt t)]
  rfl

end Sys2Proof.Machine
end

section
/-! SUPPORT. The one exception and the halted condition: entering `IllegalCommand` (R74 to R76), staying halted over a step
and over a run (R78), and leaving by reset alone (R79). -/

namespace Sys2Proof.Machine

open Sys2Proof

/-! ## Entering the exception (R74, R75, R76) -/

/-- An unassigned byte at the head of the queue is consumed and answered as the illegal input (R38, R40). -/
theorem step_unassigned {s : State} {op : Byte} {es : List Input} (hl : s.live = true) (hop : formatOf op = none)
    (hr : s.rx = .byte op :: es) : step s = .next (answerIllegal op { s with rx := es }) := by
  have hd : decode (bytesBeforeReset s.rx) = .illegal op (bytesBeforeReset es) := by
    rw [hr, bytesBeforeReset, decode_unassigned op _ hop]
  have hc : s.consume (bytesBeforeReset es) = { s with rx := es } := by rw [State.consume, hr, fromReset, rx_split]
  simp [step, fetch, fetchLive, hl, hd, hc]

/-- Settles O12: the byte is unassigned and the block runs, so `answerIllegal` raises. -/
theorem illegalCommandEntry : Obligations.IllegalCommandEntry := by
  intro s op es hl hf hr hpush hend htrunc
  refine ⟨?_, rfl⟩
  rw [step_unassigned hl ((formatOf_eq_none op).mpr ⟨hpush, hend, htrunc⟩) hr, answerIllegal,
    whenRunning_running _ { s with rx := es } hf]
  rfl

/-- Settles O13: what sets `FLT` is an unassigned byte by `fltChangesOnlyByFaultAndReset`, and every such byte sets it by
`illegalCommandEntry`. -/
theorem illegalCommandRaisedExactlyWhen : Obligations.IllegalCommandRaisedExactlyWhen := by
  intro s hl hf
  constructor
  · rintro ⟨t, hstep, hset⟩
    obtain ⟨op, es, hr, hop, -⟩ := (fltChangesOnlyByFaultAndReset s t hstep).1 hf hset
    exact ⟨op, es, hr, (formatOf_eq_none op).mp hop⟩
  · rintro ⟨op, es, hr, hpush, hend, htrunc⟩
    obtain ⟨hstep, -⟩ := illegalCommandEntry s op es hl hf hr hpush hend htrunc
    exact ⟨_, hstep, rfl⟩

/-! ## The halted condition (R78, R79) -/

/-- Settles O15: commands and unassigned bytes meet the halted check, and a step that clears `FLT` found a reset event by
`fltChangesOnlyByFaultAndReset`. -/
theorem haltedInputsAreAnsweredHalted : Obligations.HaltedInputsAreAnsweredHalted := by
  refine ⟨rfl, exec_halted, fun i s es hl hf hr => ?_, fun op s es hl hf hpush hend htrunc hr => ?_,
    fun s t hf hstep hclear => ?_⟩
  · rw [step_encode hl hr]
    exact exec_halted i { s with rx := es } hf
  · rw [step_unassigned hl ((formatOf_eq_none op).mpr ⟨hpush, hend, htrunc⟩) hr, answerIllegal,
      whenRunning_halted _ { s with rx := es } hf]
    rfl
  · obtain ⟨p, es, hr, -⟩ := (fltChangesOnlyByFaultAndReset s t hstep).2 hf hclear
    simp [hr]

/-- `t` is reached from `s` with the block halted all along: `ACC` and `NB` are those of `s`, only `HALTED` responses
were added, and no reset event stands in the queue (R78). -/
structure StaysHalted (s t : State) : Prop where
  flt : t.flt = true
  acc : t.acc = s.acc
  nb : t.nb = s.nb
  no_reset : Input.reset ∉ t.rx
  tx : ∃ n : Nat, t.tx = s.tx ++ List.replicate n .halted

theorem StaysHalted.refl {s : State} (hf : s.flt = true) (hr : Input.reset ∉ s.rx) : StaysHalted s s :=
  ⟨hf, rfl, rfl, hr, 0, by simp⟩

theorem StaysHalted.trans {s t u : State} (hst : StaysHalted s t) (htu : StaysHalted t u) : StaysHalted s u := by
  obtain ⟨m, hm⟩ := hst.tx
  obtain ⟨n, hn⟩ := htu.tx
  exact ⟨htu.flt, htu.acc.trans hst.acc, htu.nb.trans hst.nb, htu.no_reset, m + n, by
    rw [hn, hm, List.append_assoc, List.replicate_append_replicate]⟩

/-- Of the five effects of a step, a halted block with no reset event queued has the hold and the answer `HALTED`. -/
theorem StaysHalted.of_step {s t : State} (hf : s.flt = true) (hr : Input.reset ∉ s.rx) (h : step s = .next t) :
    StaysHalted s t := by
  cases StepEffect.of_step h with
  | hold => exact .refl hf hr
  | reset p es hrx => simp [hrx] at hr
  | halted bs es _ _ hrx =>
    have hes : Input.reset ∉ es := fun he => hr (hrx ▸ List.mem_append_right _ he)
    exact ⟨hf, rfl, rfl, hes, 1, rfl⟩
  | exception op es _ hrun => simp [hf] at hrun
  | command i es _ hrun => simp [hf] at hrun

/-- A run that does not stop takes a first step and then the rest of the run. -/
theorem run_succ_eq_next {k : Nat} {s t : State} :
    run (k + 1) s = .next t ↔ ∃ u, step s = .next u ∧ run k u = .next t := by
  rw [run]
  cases step s <;> simp

/-- The block stays halted over a run, by induction on its steps. -/
theorem StaysHalted.of_run {k : Nat} {s t : State} (hf : s.flt = true) (hr : Input.reset ∉ s.rx)
    (h : run k s = .next t) : StaysHalted s t := by
  induction k generalizing s with
  | zero =>
    cases h
    exact .refl hf hr
  | succ k ih =>
    obtain ⟨u, hstep, hrun⟩ := run_succ_eq_next.mp h
    have hsu : StaysHalted s u := .of_step hf hr hstep
    exact hsu.trans (ih hsu.flt hsu.no_reset hrun)

/-- Settles O16: the fields of `StaysHalted`. -/
theorem haltedUntilReset : Obligations.HaltedUntilReset := by
  intro k s t hf hr h
  obtain ⟨hflt, hacc, hnb, -, htx⟩ := StaysHalted.of_run hf hr h
  exact ⟨hflt, hacc, hnb, htx⟩

end Sys2Proof.Machine
end

section
/-! SUPPORT. Several instances: a schedule of steps is the instances' own runs (R84, D17). -/

namespace Sys2Proof.Machine

open Sys2Proof

/-- A schedule that does not stop takes a step of its first instance, which writes that instance alone. -/
theorem runSchedule_cons_eq_next {n : Nat} {k : Fin n} {ks : List (Fin n)} {b e : Instances n} :
    runSchedule (k :: ks) b = .next e ↔ ∃ t, step b[k] = .next t ∧ runSchedule ks (b.set k t) = .next e := by
  rw [runSchedule, stepAt]
  cases step b[k] <;> simp

/-- What instance `j` holds after instance `k` is written. -/
theorem set_getElem_fin {n : Nat} (b : Instances n) (k j : Fin n) (t : State) :
    (b.set k t)[j] = if k = j then t else b[j] := by
  simp [Vector.getElem_set, Fin.ext_iff]

/-- A step of instance `k` is the first step of its own run, and no step of another instance's. -/
theorem run_count_cons {n : Nat} {k : Fin n} {b : Instances n} {t : State} (hstep : step b[k] = .next t)
    (ks : List (Fin n)) (j : Fin n) : run ((k :: ks).count j) b[j] = run (ks.count j) (b.set k t)[j] := by
  by_cases hj : k = j
  · subst hj
    rw [List.count_cons_self, run_succ hstep, set_getElem_fin, if_pos rfl]
  · rw [List.count_cons_of_ne hj, set_getElem_fin, if_neg hj]

/-- The schedule ends where the runs of the instances do, by induction on the schedule. -/
theorem runSchedule_eq_next_iff {n : Nat} (ks : List (Fin n)) (b e : Instances n) :
    runSchedule ks b = .next e ↔ ∀ k : Fin n, run (ks.count k) b[k] = .next e[k] := by
  induction ks generalizing b with
  | nil => simp [runSchedule, Vector.ext_iff, Fin.forall_iff]
  | cons k ks ih =>
    rw [runSchedule_cons_eq_next]
    constructor
    · rintro ⟨t, hstep, hrest⟩ j
      rw [run_count_cons hstep]
      exact (ih _).mp hrest j
    · intro hruns
      have hk := hruns k
      rw [List.count_cons_self, run_succ_eq_next] at hk
      obtain ⟨t, hstep, -⟩ := hk
      exact ⟨t, hstep, (ih _).mpr fun j => run_count_cons hstep ks j ▸ hruns j⟩

/-- Settles O48: the schedule by `runSchedule_eq_next_iff`, and a send writes one instance only. -/
theorem instancesAreIndependent : Obligations.InstancesAreIndependent := by
  refine ⟨fun n => runSchedule_eq_next_iff, fun n k j ins b => ?_⟩
  rw [sendAt, set_getElem_fin]
  split_ifs with hkj
  · rw [hkj]
  · rfl

end Sys2Proof.Machine
end

section
/-! SUPPORT. Reset and hazards: the step that takes a reset event (R86), the block before its first reset (R87, R88), and
the clean run (R95). -/

namespace Sys2Proof.Machine

open Sys2Proof

/-! ## The reset event (R86) -/

/-- Where a reset event stands behind a partial command, or first in the queue of a block not yet reset, the step takes
it. -/
theorem step_of_reset {s : State} {p : List Byte} {es : List Input} (hrx : s.rx = p.map Input.byte ++ .reset :: es)
    (hpartial : s.live = true → decode p = .incomplete) (hfirst : s.live = false → p = []) :
    step s = .next (State.takeReset { s with rx := es }) := by
  cases hl : s.live with
  | false =>
    obtain rfl := hfirst hl
    simp [step, fetch, fetchNotLive, hl, hrx]
  | true =>
    have hbytes : decode (bytesBeforeReset s.rx) = .incomplete := by
      simpa [hrx, bytesBeforeReset] using hpartial hl
    have hreset : fromReset s.rx = .reset :: es := by simp [hrx, fromReset]
    simp [step, fetch, fetchLive, fetchReset, hl, hbytes, hreset]

/-- Settles O17: both forms of the event are `step_of_reset`, nothing at all being a partial command too; and of the five
effects of a step only the reset event clears `FLT`. -/
theorem resetEventZeroesTheState : Obligations.ResetEventZeroesTheState := by
  refine ⟨fun s es hrx => ?_, fun s p es hl hp hrx => ?_, fun s t h hset hclear => ?_⟩
  · exact step_of_reset (p := []) hrx (fun _ => decode_nil) (fun _ => rfl)
  · exact step_of_reset hrx (fun _ => hp) (fun hdead => by simp [hl] at hdead)
  · cases StepEffect.of_step h with
    | hold => simp [hset] at hclear
    | reset p es hrx hp hf => exact ⟨p, es, hrx, hp, hf, rfl⟩
    | halted => simp [hset] at hclear
    | exception => simp at hclear
    | command i es _ hflt => simp [hset] at hflt

/-! ## Before the first reset (R87, R88) -/

/-- Settles O20: a byte is `step_byte_before_reset`; of the five effects of a step only the hold and the reset event need
no earlier reset, and on such a block no byte stands in front of either. -/
theorem noCommandStepBeforeReset : Obligations.NoCommandStepBeforeReset := by
  refine ⟨fun s b es hl hrx => step_byte_before_reset hl hrx, fun s t hl h => ?_⟩
  cases StepEffect.of_step h with
  | hold p hrx _ hfirst => exact .inl ⟨rfl, by simpa [hfirst hl] using hrx⟩
  | reset p es hrx _ hfirst => exact .inr ⟨es, by simpa [hfirst hl] using hrx, rfl⟩
  | halted bs es hlive => simp [hl] at hlive
  | exception op es hlive => simp [hl] at hlive
  | command i es hlive => simp [hl] at hlive

/-! ## The clean run (R95) -/

/-- Between `s` and `t` responses were only added, and unless one of them is `FAULT` or `HALTED` a block that runs in `s`
runs in `t`. -/
def RunsWhileClean (s t : State) : Prop :=
  ∃ rs, t.tx = s.tx ++ rs ∧ (cleanResponses rs = true → s.flt = false → t.flt = false)

theorem RunsWhileClean.refl (s : State) : RunsWhileClean s s :=
  ⟨[], by simp, fun _ hf => hf⟩

theorem RunsWhileClean.trans {s t u : State} (hst : RunsWhileClean s t) (htu : RunsWhileClean t u) :
    RunsWhileClean s u := by
  obtain ⟨rs, hrs, hkeep⟩ := hst
  obtain ⟨qs, hqs, hkeep'⟩ := htu
  refine ⟨rs ++ qs, by rw [hqs, hrs, List.append_assoc], fun hclean hf => ?_⟩
  rw [cleanResponses, List.all_append, Bool.and_eq_true] at hclean
  exact hkeep' hclean.2 (hkeep hclean.1 hf)

/-- Of the five effects of a step only the exception sets `FLT`, and it answers `FAULT`. -/
theorem RunsWhileClean.of_step {s t : State} (h : step s = .next t) : RunsWhileClean s t := by
  cases StepEffect.of_step h with
  | hold => exact .refl _
  | reset => exact ⟨[], by simp, fun _ _ => rfl⟩
  | halted => exact ⟨[.halted], rfl, fun _ hf => hf⟩
  | exception op => exact ⟨[.fault op], rfl, fun hclean => by simp [cleanResponses, isBadResponse] at hclean⟩
  | command i es =>
    obtain ⟨hflt, -, -, r, htx⟩ := effectOf_frame i { s with rx := es }
    exact ⟨[r], htx, fun _ hf => hflt.trans hf⟩

theorem RunsWhileClean.of_run {k : Nat} {s t : State} (h : run k s = .next t) : RunsWhileClean s t := by
  induction k generalizing s with
  | zero =>
    cases h
    exact .refl _
  | succ k ih =>
    obtain ⟨u, hstep, hrun⟩ := run_succ_eq_next.mp h
    exact (RunsWhileClean.of_step hstep).trans (ih hrun)

/-- Settles O22: the responses a run adds are its new ones. -/
theorem cleanRunsKeepRunning : Obligations.CleanRunsKeepRunning := by
  intro k s t hf h hclean
  obtain ⟨rs, hrs, hkeep⟩ := RunsWhileClean.of_run h
  rw [newResponses_append s t rs hrs] at hclean
  exact hkeep hclean hf

end Sys2Proof.Machine
end
